-- ==== Sys2Proof/Word.lean ====
section
/-! DEFINITION. The word and text types of the XM32 machine (00_scope.md R6, 10_state.md R21). -/

namespace Sys2Proof

/-- A *word* is 32 bits (R6). Its two readings are `w.toInt`, the spec's `s(w)` (two's complement,
−2^31 .. 2^31−1), and `w.toNat`, the spec's `u(w)` (0 .. 2^32−1). -/
abbrev Word := BitVec 32

/-- A finite sequence of characters (R21): the text-output buffer, and source text. -/
abbrev Text := List Char

/-- `wrap32(v)` (R6): the word `w` with `s(w) ≡ v (mod 2^32)`. -/
abbrev wrap32 (v : Int) : Word := BitVec.ofInt 32 v

end Sys2Proof
end

