-- ==== Sys2Proof/Config.lean ====
section
/-! DEFINITION. What an instance of the machine fixes: the parameters of 00_scope.md R4. The two sizes
no instance changes are constants. The parameters the spec offers with a default or leaves OPEN are a
record that a machine carries, so that a statement about every state is one about every value of them. -/

namespace Sys2Proof.Config

/-- `NREGS` (R4, R10). -/
abbrev nregs : Nat := 10

/-- The greatest program length: `0 ≤ L ≤ 2^31 − 1` (R4, R20). -/
abbrev maxProgramLength : Nat := 2 ^ 31 - 1

/-- The two values of the parameter `ARITH_OVERFLOW` (R4, R112). -/
inductive ArithOverflow where
  | wrap
  | fault
deriving DecidableEq, Repr

/-- The parameters of R4 that an instance may choose; nothing else varies (R5). `SLP_NEG` and the
display's properties have no field: no rule of the machine depends on them (R4). -/
structure Params where
  /-- `ARITH_OVERFLOW`. -/
  arithOverflow : ArithOverflow
  /-- `STACK_DEPTH`: `none` is unbounded. -/
  stackDepth : Option Nat
  /-- `PRINT_SEP`. -/
  printSep : Text
deriving DecidableEq, Repr

end Sys2Proof.Config
end

