-- ==== Sys2Proof/Syntax.lean ====
section
/-! DEFINITION. The instructions of the XM32 bytecode: one constructor per row of
spec/opcode_table.json (30_encoding.md R57). -/

namespace Sys2Proof

/-- An instruction with its operand words, in the order of R57. A register operand is the word as
fetched: the check that it names a register is a stage of the step, not of the decoder (R61, R87). -/
inductive Instr where
  | movr (dst src : Word)
  | movv (dst lit : Word)
  | add (dst src : Word)
  | sub (dst src : Word)
  | push (src : Word)
  | pop (dst : Word)
  | jp (addr : Word)
  | jl (a b addr : Word)
  | call (addr : Word)
  | ret
  | print (src : Word)
  | draw (x y color : Word)
  | cls
  | slp (ms : Word)
  | halt
deriving DecidableEq, Repr

end Sys2Proof
end

