-- ==== Sys2Proof/WellFormed.lean ====
section
/-! DEFINITION. Which instructions are well formed: every register operand names a register
(30_encoding.md R54, R59). Literal and address operands are legal at every value (R55, R56). -/

namespace Sys2Proof

/-- The word names a register: `0 ≤ s(w) < NREGS` (R54). -/
def isRegWord (w : Word) : Bool := 0 ≤ w.toInt && w.toInt < (Config.nregs : Int)

/-- The register operands with their word positions, positions ascending (R51, R87). -/
def Instr.regOperands : Instr → List (Nat × Word)
  | .movr dst src => [(1, dst), (2, src)]
  | .movv dst _ => [(1, dst)]
  | .add dst src => [(1, dst), (2, src)]
  | .sub dst src => [(1, dst), (2, src)]
  | .push src => [(1, src)]
  | .pop dst => [(1, dst)]
  | .jp _ => []
  | .jl a b _ => [(1, a), (2, b)]
  | .call _ => []
  | .ret => []
  | .print src => [(1, src)]
  | .draw x y color => [(1, x), (2, y), (3, color)]
  | .cls => []
  | .slp _ => []
  | .halt => []

/-- The first register operand, in ascending position, that names no register (R87). -/
def Instr.firstBadOperand (i : Instr) : Option (Nat × Word) :=
  i.regOperands.find? fun p => !isRegWord p.2

/-- Every register operand names a register. -/
def Instr.WellFormed (i : Instr) : Bool := i.regOperands.all fun p => isRegWord p.2

end Sys2Proof
end

