-- ==== Sys2Proof/Decode.lean ====
section
/-! DEFINITION. The opcode map, the decoder and the encoder (30_encoding.md R50 to R61). The numeric
literals of the opcode map stand once, in `Mnemonic.opcode` (93_implementation_defined.md U12). -/

namespace Sys2Proof

/-- The 15 mnemonics of R57. -/
inductive Mnemonic where
  | movr | movv | add | sub | push | pop | jp | jl | call | ret | print | draw | cls | slp | halt
deriving DecidableEq, Repr

/-- The three kinds of operand word (R51). -/
inductive OperandKind where
  | reg
  | lit
  | addr
deriving DecidableEq, Repr

def Mnemonic.all : List Mnemonic :=
  [.movr, .movv, .add, .sub, .push, .pop, .jp, .jl, .call, .ret, .print, .draw, .cls, .slp, .halt]

/-- The opcode map (R57). -/
def Mnemonic.opcode : Mnemonic → Word
  | .movr => 10
  | .movv => 11
  | .add => 20
  | .sub => 21
  | .push => 30
  | .pop => 31
  | .jp => 40
  | .jl => 41
  | .call => 42
  | .ret => 50
  | .print => 60
  | .draw => 61
  | .cls => 62
  | .slp => 70
  | .halt => 255

/-- The operand kinds of words 1 to n, in order (R51, R57). -/
def Mnemonic.kinds : Mnemonic → List OperandKind
  | .movr => [.reg, .reg]
  | .movv => [.reg, .lit]
  | .add => [.reg, .reg]
  | .sub => [.reg, .reg]
  | .push => [.reg]
  | .pop => [.reg]
  | .jp => [.addr]
  | .jl => [.reg, .reg, .addr]
  | .call => [.addr]
  | .ret => []
  | .print => [.reg]
  | .draw => [.reg, .reg, .reg]
  | .cls => []
  | .slp => [.lit]
  | .halt => []

/-- The number of operand words, fixed by the opcode alone (R50, R52). -/
def Mnemonic.arity (m : Mnemonic) : Nat := m.kinds.length

/-- The number of words an instruction occupies: 1 + arity (R50). -/
def Mnemonic.width (m : Mnemonic) : Nat := 1 + m.arity

/-- The reverse lookup of R75: the whole word is compared (R53), and a word that is none of the 15
opcodes has no mnemonic (92_eei_decisions.md D27). -/
def mnemonicOf (op : Word) : Option Mnemonic := Mnemonic.all.find? fun m => m.opcode == op

def Instr.mnemonic : Instr → Mnemonic
  | .movr _ _ => .movr
  | .movv _ _ => .movv
  | .add _ _ => .add
  | .sub _ _ => .sub
  | .push _ => .push
  | .pop _ => .pop
  | .jp _ => .jp
  | .jl _ _ _ => .jl
  | .call _ => .call
  | .ret => .ret
  | .print _ => .print
  | .draw _ _ _ => .draw
  | .cls => .cls
  | .slp _ => .slp
  | .halt => .halt

/-- The operand words in order (R57). -/
def Instr.operands : Instr → List Word
  | .movr dst src => [dst, src]
  | .movv dst lit => [dst, lit]
  | .add dst src => [dst, src]
  | .sub dst src => [dst, src]
  | .push src => [src]
  | .pop dst => [dst]
  | .jp addr => [addr]
  | .jl a b addr => [a, b, addr]
  | .call addr => [addr]
  | .ret => []
  | .print src => [src]
  | .draw x y color => [x, y, color]
  | .cls => []
  | .slp ms => [ms]
  | .halt => []

def Instr.opcode (i : Instr) : Word := i.mnemonic.opcode

def Instr.width (i : Instr) : Nat := i.mnemonic.width

/-- What decoding finds (R61). `noWord` is the empty rest of a program: there is no opcode word. -/
inductive Decoded where
  | instr (i : Instr) (rest : List Word)
  | unknownOpcode (op : Word)
  | truncated (op : Word)
  | noWord
deriving DecidableEq, Repr

/-- Take the operand words of an instruction of arity 1, 2 or 3; too few words are a truncated
instruction (R61, R86). -/
def take1 (op : Word) (ws : List Word) (f : Word → Instr) : Decoded :=
  match ws with
  | a :: rest => .instr (f a) rest
  | _ => .truncated op

def take2 (op : Word) (ws : List Word) (f : Word → Word → Instr) : Decoded :=
  match ws with
  | a :: b :: rest => .instr (f a b) rest
  | _ => .truncated op

def take3 (op : Word) (ws : List Word) (f : Word → Word → Word → Instr) : Decoded :=
  match ws with
  | a :: b :: c :: rest => .instr (f a b c) rest
  | _ => .truncated op

/-- Decode the instruction at the head of a list of words (R50 to R53, R57, R61). Register operands
are not checked here (R61). -/
def decode : List Word → Decoded
  | [] => .noWord
  | op :: ws =>
    match mnemonicOf op with
    | none => .unknownOpcode op
    | some .movr => take2 op ws .movr
    | some .movv => take2 op ws .movv
    | some .add => take2 op ws .add
    | some .sub => take2 op ws .sub
    | some .push => take1 op ws .push
    | some .pop => take1 op ws .pop
    | some .jp => take1 op ws .jp
    | some .jl => take3 op ws .jl
    | some .call => take1 op ws .call
    | some .ret => .instr .ret ws
    | some .print => take1 op ws .print
    | some .draw => take3 op ws .draw
    | some .cls => .instr .cls ws
    | some .slp => take1 op ws .slp
    | some .halt => .instr .halt ws

/-- Decoding at an index of the program store: word `a`, then the words after it (R52, R61). -/
def decodeAt (P : List Word) (a : Nat) : Decoded := decode (P.drop a)

/-- The words of an instruction: opcode, then operands, no separators (R50, R57). -/
def encode (i : Instr) : List Word := i.opcode :: i.operands

/-- The words of a sequence of instructions, concatenated (R50). -/
def encodeProgram (is : List Instr) : List Word := is.flatMap encode

/-- Sequential decoding from the head of the list (R52): all the instructions, or `none` where an
opcode is unknown or an instruction is truncated. The first argument bounds the number of
instructions; the number of words is always enough. -/
def decodeInstrs : Nat → List Word → Option (List Instr)
  | _, [] => some []
  | 0, _ :: _ => none
  | n + 1, ws =>
    match decode ws with
    | .instr i rest => (decodeInstrs n rest).map fun is => i :: is
    | _ => none

def decodeProgram (ws : List Word) : Option (List Instr) := decodeInstrs ws.length ws

/-- The four words that bits `nbits − 1 .. 0` of `w` stand for, the word with bits 31 .. 0 first; the
bits above `nbits` are 0. Four words are the longest instruction (R50). -/
def tableWords (nbits w : Nat) : List Word :=
  let v := w % 2 ^ nbits
  [BitVec.ofNat 32 v, BitVec.ofNat 32 (v / 2 ^ 32), BitVec.ofNat 32 (v / 2 ^ 64),
    BitVec.ofNat 32 (v / 2 ^ 96)]

/-- The instruction the decoder reads from the words that `w` numbers as spec/opcode_table.json does. -/
def decodeTableWord (nbits w : Nat) : Option Instr :=
  match decode (tableWords nbits w) with
  | .instr i _ => some i
  | _ => none

end Sys2Proof
end

