-- ==== Sys2Proof/Machine/Defaults.lean ====
section
/-! DEFINITION. The values the machine starts with where the spec states a default or leaves the value
open (00_scope.md R4, 10_state.md R12, R25). -/

namespace Sys2Proof.Machine

/-- The parameters at the defaults R4 states: wrapping arithmetic, an unbounded stack, an empty
separator. DESIGN CHOICE (log 5): `PRINT_SEP` is OPEN in R4 and its default is taken. -/
def defaultParams : Config.Params where
  arithOverflow := .wrap
  stackDepth := none
  printSep := []

/-- DESIGN CHOICE (log 1): the spec gives no power-on value of a register (`REG_INIT` is open, R12);
the reset state has zero in every register. -/
def resetRegs : Vector Word Config.nregs := Vector.replicate Config.nregs 0

end Sys2Proof.Machine
end

