-- ==== Sys2Proof/Machine/State.lean ====
section
/-! DEFINITION. The state of the machine: R24's tuple `(x[0..9], pc, stack, halted, cause, out)`, the
program `P` with its length `L`, the instance's parameters (R4) and the record of the events sent (R23). -/

namespace Sys2Proof.Machine

/-- The halt cause (R18). -/
inductive Cause where
  | none
  | haltInstr
  | pcOutOfBounds
  | unknownOpcode
  | operandIndexOutOfRange
  | truncatedInstruction
  | stackOverflow
  | arithOverflow
deriving DecidableEq, Repr

/-- The level of a diagnostic (R23, R172). -/
inductive Level where
  | info
  | warning
  | error
deriving DecidableEq, Repr

/-- The kind of a diagnostic with what it carries (R172). `pc` is the program counter, `op` the opcode
word; an unknown opcode travels as `s(op)` with its mnemonic lookup (R152). -/
inductive Diag where
  | start (length : Nat)
  | halt (pc : Word)
  | pcOutOfBounds (pc : Word)
  | unknownOpcode (op : Int) (mnemonic : Option Mnemonic) (pc : Word)
  | operandIndexOutOfRange (pc op : Word) (position : Nat) (word : Word)
  | truncatedInstruction (pc op : Word)
  | stackOverflow (pc op : Word)
  | arithOverflow (pc op : Word)
  | steppedWhileHalted (pc : Word)
deriving DecidableEq, Repr

/-- One message on an output port (R23): the display, the debug mirror, the host timer, diagnostics. -/
inductive Event where
  | setPixel (x y : Int) (color : BitVec 8)
  | clear
  | mirror (text : Text)
  | sleep (ms : Int)
  | diag (level : Level) (info : Diag)
deriving DecidableEq, Repr

/-- Empty: the machine has no fault beside its own halt causes, and each of those is a NEXT state with
`halted` set (R160, R168). Nothing raises a fault, so no step can end in one. -/
inductive Fault where
deriving DecidableEq, Repr

/-- Why there is no next state. -/
inductive Refusal where
  /-- Raised by an arm of `exec` whose instruction has no meaning yet: no arm at present. Safe. -/
  | notModelled (mnemonic : String)
  /-- Raised by `step` before the first `init`, as R195 says: no program is installed. Safe. -/
  | notInitialised
  /-- Raised by `init` given a program longer than 2^31 − 1 words (R20, decision D4). Safe. -/
  | programTooLong
deriving DecidableEq, Repr

/-- The whole state. -/
structure State where
  /-- `x[0..9]` (R10, R11). -/
  regs : Vector Word Config.nregs
  /-- `pc`, unsigned, a word index (R13). -/
  pc : Word
  /-- The stack, the TOP FIRST (R15; log 7). -/
  stack : List Word
  /-- RUNNING is `false`, HALTED is `true` (R17). -/
  halted : Bool
  /-- The halt cause (R18). -/
  cause : Cause
  /-- The text-output buffer (R21). -/
  out : Text
  /-- The program store, `L` its length; `none` until the first `init` installs one (R20, R25). -/
  program : Option (List Word)
  /-- The events sent since power-on, oldest first (R23; log 6). -/
  events : List Event
  /-- The parameters of this instance (R4; log 5). No operation changes them. -/
  params : Config.Params
deriving DecidableEq, Repr

/-- The machine as constructed (R25, R190), for any parameters and any power-on registers `REG_INIT`.
DESIGN CHOICE (log 2): the stack and `out` are not given at construction and are empty here. -/
def State.powerOn (params : Config.Params) (regInit : Vector Word Config.nregs) : State where
  regs := regInit
  pc := 0
  stack := []
  halted := false
  cause := .none
  out := []
  program := none
  events := []
  params := params

/-- The machine right after reset: power-on with the default parameters (log 5) and the model's own
register values (log 1). -/
def State.reset : State := State.powerOn defaultParams resetRegs

end Sys2Proof.Machine
end

