-- ==== Sys2Proof/Machine/Flags.lean ====
section
/-! DEFINITION. Conditions computed from values. The machine has NO condition codes (10_state.md R19);
the one comparison is JL's, made afresh and not kept, and the one overflow test is the parameter
`ARITH_OVERFLOW`'s. The codes of the halt cause stand here too. -/

namespace Sys2Proof.Machine

/-- The exact result fits a signed 32-bit word: −2^31 .. 2^31−1 (R110, R111). -/
def fitsWord (v : Int) : Bool := -2 ^ 31 ≤ v && v < 2 ^ 31

/-- The overflow of an exact sum or difference is raised: only under `ARITH_OVERFLOW = fault` (R112). -/
def overflowRaises (p : Config.Params) (v : Int) : Bool :=
  p.arithOverflow == .fault && !fitsWord v

/-- JL's condition: signed, strict (R131, decision D20). -/
def signedLess (a b : Word) : Bool := a.toInt < b.toInt

/-- The stack already holds `STACK_DEPTH` entries; never so when it is unbounded (R15). -/
def stackFull (s : State) : Bool :=
  match s.params.stackDepth with
  | none => false
  | some d => d ≤ s.stack.length

/-- The code of a halt cause (R18). -/
def Cause.code : Cause → Nat
  | .none => 0
  | .haltInstr => 1
  | .pcOutOfBounds => 2
  | .unknownOpcode => 3
  | .operandIndexOutOfRange => 4
  | .truncatedInstruction => 5
  | .stackOverflow => 6
  | .arithOverflow => 7

/-- The level of each kind of diagnostic (R172). -/
def Diag.level : Diag → Level
  | .start _ => .info
  | .halt _ => .info
  | .pcOutOfBounds _ => .warning
  | .unknownOpcode _ _ _ => .error
  | .operandIndexOutOfRange _ _ _ _ => .error
  | .truncatedInstruction _ _ => .error
  | .stackOverflow _ _ => .error
  | .arithOverflow _ _ => .error
  | .steppedWhileHalted _ => .warning

end Sys2Proof.Machine
end

