-- ==== Sys2Proof/Machine/Ops.lean ====
section
/-! DEFINITION. The named operations over the state: registers, program counter, stack, output, the
program store, the entry into HALTED and the way out of it. -/

namespace Sys2Proof.Machine

/-- What a meaning, a step or a command answers. -/
abbrev Result := Host.Outcome State Fault Refusal

/-- The register index type: 0 .. NREGS−1 (R10). -/
abbrev RegIx := Fin Config.nregs

/-- `x[r]`; no register is hardwired (R11). -/
def State.getReg (s : State) (r : RegIx) : Word := s.regs[r]

/-- `x[r] <- v`. -/
def State.setReg (s : State) (r : RegIx) (v : Word) : State := { s with regs := s.regs.set r v }

/-- `pc <- t`. -/
def State.setPc (s : State) (t : Word) : State := { s with pc := t }

/-- `pc <- pc + n`, in 32 bits; it does not wrap where an instruction lies inside the program (R13). -/
def State.advance (s : State) (n : Nat) : State := s.setPc (s.pc + BitVec.ofNat 32 n)

/-- `to_pc(w) = u(w)` (R14): the same 32 bits, read unsigned. -/
def toPc (w : Word) : Word := w

/-- The state with another stack. -/
def State.setStack (s : State) (st : List Word) : State := { s with stack := st }

/-- `out <- out ++ t` (R7, R21). -/
def State.appendOut (s : State) (t : Text) : State := { s with out := s.out ++ t }

/-- `emit E` (R7, R23). -/
def State.emit (s : State) (e : Event) : State := { s with events := s.events ++ [e] }

/-- Emit a diagnostic at its level (R172). -/
def State.emitDiag (s : State) (d : Diag) : State := s.emit (.diag d.level d)

/-- ENTRY INTO HALTED, the one operation every halt cause goes through (R168): `halted <- true`, the
cause recorded if there is none yet (the first cause wins, R18), one diagnostic event. Nothing else
changes: no pc is saved, there is no vector and no mode. -/
def State.enterHalted (s : State) (c : Cause) (d : Diag) : State :=
  { s with
    halted := true
    cause := if s.cause = .none then c else s.cause
    events := s.events ++ [.diag d.level d] }

/-- THE ONLY WAY OUT OF HALTED (R80, R170): `init` installs the program and starts a run from index 0
with an empty stack; the registers keep their values (R12). -/
def State.installProgram (s : State) (P : List Word) (text0 : Text) : State :=
  { s with
    program := some P
    pc := 0
    stack := []
    halted := false
    cause := .none
    out := text0 }

/-- The length is legal: `L ≤ 2^31 − 1` (R20). The canonical form of the program store: it is one list
of words, index 0 first, so this bound is all there is to hold. -/
abbrev Memory.wf (P : List Word) : Prop := P.length ≤ Config.maxProgramLength

/-- `push(v)` followed by `k` (R15): on a full stack `StackOverflow` is raised, nothing is pushed and
`k` does not run. `op` is the pushing instruction's opcode, for the diagnostic. -/
def pushThen (op : Word) (v : Word) (s : State) (k : State → Result) : Result :=
  if stackFull s then .next (s.enterHalted .stackOverflow (.stackOverflow s.pc op))
  else k (s.setStack (v :: s.stack))

/-- `pop()`: the value (R16), 0 on an empty stack. -/
def State.popValue (s : State) : Word := s.stack.headD 0

/-- `pop()`: the state after it (R16); an empty stack stays empty. -/
def State.popped (s : State) : State := s.setStack s.stack.tail

/-- The program words with `ws` written over the words from index `a` on; zeros fill a gap. -/
def writeWords (P : List Word) (a : Nat) (ws : List Word) : List Word :=
  P.take a ++ List.replicate (a - P.length) 0 ++ ws ++ P.drop (a + ws.length)

/-- The state in which the next step fetches `ws`: the words stand at `pc` in the installed program and
the machine is RUNNING. It stands for a host's load (log 3), not for an operation of the machine. -/
def State.placeWords (s : State) (ws : List Word) : State :=
  { s with
    program := some (writeWords (s.program.getD []) s.pc.toNat ws)
    halted := false
    cause := .none }

end Sys2Proof.Machine
end

