-- ==== Sys2Proof/Machine/Operands.lean ====
section
/-! DEFINITION. The operand forms (30_encoding.md R54 to R56): register, literal, address. A literal is
the word itself and an address is the word through `toPc`; neither is checked. -/

namespace Sys2Proof.Machine

/-- The register an operand word names: `s(w)` when `0 ≤ s(w) < NREGS` (R54). -/
def regIndex? (w : Word) : Option RegIx :=
  if h : 0 ≤ w.toInt ∧ w.toInt < (Config.nregs : Int) then some ⟨w.toInt.toNat, by omega⟩ else none

/-- Stage S5 for the register operand `w` at word position `k` of the instruction with opcode `op`
(R87): `k` runs with the register it names, or `OperandIndexOutOfRange` is raised with nothing else
changed. The positions of an instruction are checked in ascending order by nesting. -/
def withReg (op : Word) (pos : Nat) (w : Word) (s : State) (k : RegIx → Result) : Result :=
  match regIndex? w with
  | some r => k r
  | none => .next (s.enterHalted .operandIndexOutOfRange (.operandIndexOutOfRange s.pc op pos w))

end Sys2Proof.Machine
end

