-- ==== Sys2Proof/Machine/Arith.lean ====
section
/-! DEFINITION. Arithmetic: ADD, SUB (42_arithmetic.md). -/

namespace Sys2Proof.Machine

/-- Write the exact result `v` of an arithmetic instruction with opcode `op`: wrapped into 32 bits, or
`ArithOverflow` raised with no register written where the parameter says so (R110 to R112). -/
def writeExact (op : Word) (d : RegIx) (v : Int) (s : State) : Result :=
  if overflowRaises s.params v then .next (s.enterHalted .arithOverflow (.arithOverflow s.pc op))
  else .next ((s.setReg d (wrap32 v)).advance 3)

/-- ADD: `x[d] <- wrap32(s(x[d]) + s(x[r]))` (R110). -/
def execAdd (dst src : Word) (s : State) : Result :=
  withReg Mnemonic.add.opcode 1 dst s fun d =>
  withReg Mnemonic.add.opcode 2 src s fun r =>
  writeExact Mnemonic.add.opcode d ((s.getReg d).toInt + (s.getReg r).toInt) s

/-- SUB: `x[d] <- wrap32(s(x[d]) − s(x[r]))` (R111). -/
def execSub (dst src : Word) (s : State) : Result :=
  withReg Mnemonic.sub.opcode 1 dst s fun d =>
  withReg Mnemonic.sub.opcode 2 src s fun r =>
  writeExact Mnemonic.sub.opcode d ((s.getReg d).toInt - (s.getReg r).toInt) s

end Sys2Proof.Machine
end

