-- ==== Sys2Proof/Machine/Control.lean ====
section
/-! DEFINITION. Control transfer: JP, JL, CALL, RET (44_control_transfer.md). No target is checked: one
at or past the end of the program is found by the bound check after the step (R89, R134). -/

namespace Sys2Proof.Machine

/-- JP: `pc <- to_pc(w1)` (R130). -/
def execJp (addr : Word) (s : State) : Result := .next (s.setPc (toPc addr))

/-- JL: to `to_pc(w3)` if `s(x[a]) < s(x[b])`, else on to `pc + 4` (R131). -/
def execJl (a b addr : Word) (s : State) : Result :=
  withReg Mnemonic.jl.opcode 1 a s fun ra =>
  withReg Mnemonic.jl.opcode 2 b s fun rb =>
  if signedLess (s.getReg ra) (s.getReg rb) then .next (s.setPc (toPc addr)) else .next (s.advance 4)

/-- CALL: `push(wrap32(pc + 2))` with the old `pc`, then `pc <- to_pc(w1)` (R132). -/
def execCall (addr : Word) (s : State) : Result :=
  pushThen Mnemonic.call.opcode (s.pc + 2) s fun t =>
  .next (t.setPc (toPc addr))

/-- RET: `pc <- to_pc(pop())`, index 0 on an empty stack (R133). -/
def execRet (s : State) : Result := .next (s.popped.setPc (toPc s.popValue))

end Sys2Proof.Machine
end

