-- ==== Sys2Proof/Machine/Move.lean ====
section
/-! DEFINITION. Data movement: MOVR, MOVV (41_data_movement.md). Each meaning is stages S5 and S6 of a
step (40_sequencer.md R87, R88), as in every family file. -/

namespace Sys2Proof.Machine

/-- MOVR: `x[d] <- x[r]`, `pc <- pc + 3` (R100). -/
def execMovr (dst src : Word) (s : State) : Result :=
  withReg Mnemonic.movr.opcode 1 dst s fun d =>
  withReg Mnemonic.movr.opcode 2 src s fun r =>
  .next ((s.setReg d (s.getReg r)).advance 3)

/-- MOVV: `x[d] <- w2`, `pc <- pc + 3` (R101). -/
def execMovv (dst lit : Word) (s : State) : Result :=
  withReg Mnemonic.movv.opcode 1 dst s fun d =>
  .next ((s.setReg d lit).advance 3)

end Sys2Proof.Machine
end

