-- ==== Sys2Proof/Machine/Decimal.lean ====
section
/-! DEFINITION. The decimal text of a word (45_io.md R143). -/

namespace Sys2Proof.Machine

/-- The ASCII digit of `n`, `n < 10`. -/
def digitChar (n : Nat) : Char := Char.ofNat (48 + n)

/-- The decimal digits of `n`, most significant first, without leading zeros; the first argument bounds
their number. -/
def decDigits : Nat → Nat → Text
  | 0, _ => []
  | k + 1, n => if n < 10 then [digitChar n] else decDigits k (n / 10) ++ [digitChar (n % 10)]

/-- The decimal text of an integer of at most ten digits: `-` before a negative one, never `+`. -/
def decInt (v : Int) : Text := if v < 0 then '-' :: decDigits 10 v.natAbs else decDigits 10 v.natAbs

/-- `dec(w)` (R143): the shortest base-10 representation of `s(w)`. -/
def dec (w : Word) : Text := decInt w.toInt

end Sys2Proof.Machine
end

