-- ==== Sys2Proof/Machine/Output.lean ====
section
/-! DEFINITION. Output: PRINT, DRAW, CLS (45_io.md). -/

namespace Sys2Proof.Machine

/-- PRINT: `out <- out ++ dec(x[r]) ++ PRINT_SEP`, the digits alone mirrored, `pc <- pc + 2` (R140). -/
def execPrint (src : Word) (s : State) : Result :=
  withReg Mnemonic.print.opcode 1 src s fun r =>
  .next (((s.appendOut (dec (s.getReg r) ++ s.params.printSep)).emit (.mirror (dec (s.getReg r)))).advance 2)

/-- DRAW: the pixel event with both coordinates unchanged and the low 8 bits of the colour register,
`pc <- pc + 4` (R141). -/
def execDraw (x y color : Word) (s : State) : Result :=
  withReg Mnemonic.draw.opcode 1 x s fun a =>
  withReg Mnemonic.draw.opcode 2 y s fun b =>
  withReg Mnemonic.draw.opcode 3 color s fun c =>
  .next ((s.emit (.setPixel (s.getReg a).toInt (s.getReg b).toInt ((s.getReg c).extractLsb' 0 8))).advance 4)

/-- CLS: the clear event, `pc <- pc + 1` (R142). -/
def execCls (s : State) : Result := .next ((s.emit .clear).advance 1)

end Sys2Proof.Machine
end

