-- ==== Sys2Proof/Machine/Stack.lean ====
section
/-! DEFINITION. The stack instructions: PUSH, POP (43_stack.md). -/

namespace Sys2Proof.Machine

/-- PUSH: `push(x[r])`, `pc <- pc + 2` (R120). -/
def execPush (src : Word) (s : State) : Result :=
  withReg Mnemonic.push.opcode 1 src s fun r =>
  pushThen Mnemonic.push.opcode (s.getReg r) s fun t =>
  .next (t.advance 2)

/-- POP: `x[d] <- pop()`, `pc <- pc + 2` (R121); the register is checked before the pop (R87). -/
def execPop (dst : Word) (s : State) : Result :=
  withReg Mnemonic.pop.opcode 1 dst s fun d =>
  .next ((s.popped.setReg d s.popValue).advance 2)

end Sys2Proof.Machine
end

