-- ==== Sys2Proof/Machine/System.lean ====
section
/-! DEFINITION. The system instructions: SLP, HALT (46_system.md). -/

namespace Sys2Proof.Machine

/-- SLP: the sleep event with the signed literal, `pc <- pc + 2`; time is not state (R150, R24). -/
def execSlp (ms : Word) (s : State) : Result := .next ((s.emit (.sleep ms.toInt)).advance 2)

/-- HALT: enter HALTED with cause `HaltInstr`, the diagnostic carrying the index of the HALT word, and
step past it (R151). -/
def execHalt (s : State) : Result := .next ((s.enterHalted .haltInstr (.halt s.pc)).advance 1)

end Sys2Proof.Machine
end

