-- ==== Sys2Proof/Machine/Dispatch.lean ====
section
/-! DEFINITION. One arm per instruction (30_encoding.md R57): stages S5 and S6 of a step. -/

namespace Sys2Proof.Machine

def exec (i : Instr) (s : State) : Host.Outcome State Fault Refusal :=
  match i with
  | .movr dst src => Sys2Proof.Machine.execMovr dst src s
  | .movv dst lit => Sys2Proof.Machine.execMovv dst lit s
  | .add dst src => Sys2Proof.Machine.execAdd dst src s
  | .sub dst src => Sys2Proof.Machine.execSub dst src s
  | .push src => Sys2Proof.Machine.execPush src s
  | .pop dst => Sys2Proof.Machine.execPop dst s
  | .jp addr => Sys2Proof.Machine.execJp addr s
  | .jl a b addr => Sys2Proof.Machine.execJl a b addr s
  | .call addr => Sys2Proof.Machine.execCall addr s
  | .ret => Sys2Proof.Machine.execRet s
  | .print src => Sys2Proof.Machine.execPrint src s
  | .draw x y color => Sys2Proof.Machine.execDraw x y color s
  | .cls => Sys2Proof.Machine.execCls s
  | .slp ms => Sys2Proof.Machine.execSlp ms s
  | .halt => Sys2Proof.Machine.execHalt s

end Sys2Proof.Machine
end

