-- ==== Sys2Proof/Machine/Sequencer.lean ====
section
/-! DEFINITION. The stages of a step around the instruction's own rule (40_sequencer.md R82 to R89). -/

namespace Sys2Proof.Machine

/-- Stage S7 (R89): a RUNNING machine with `pc ≥ L` halts with `PcOutOfBounds`; `pc` keeps its value. A
machine that is already HALTED is left alone. -/
def boundCheck (L : Nat) (s : State) : State :=
  if L ≤ s.pc.toNat ∧ s.halted = false then s.enterHalted .pcOutOfBounds (.pcOutOfBounds s.pc) else s

/-- Stages S5 to S7: the instruction, then the bound check. -/
def runInstr (L : Nat) (i : Instr) (s : State) : Result :=
  match exec i s with
  | .next t => .next (boundCheck L t)
  | .fault f => .fault f
  | .refused r => .refused r

/-- Stages S3 and S4 (R85, R86), then the instruction: fetch and decode at `pc`. An unknown opcode and
a truncated instruction halt with `pc` on the offending word. -/
def fetchAndRun (P : List Word) (s : State) : Result :=
  match decodeAt P s.pc.toNat with
  | .instr i _ => runInstr P.length i s
  | .unknownOpcode op =>
    .next (s.enterHalted .unknownOpcode (.unknownOpcode op.toInt (mnemonicOf op) s.pc))
  | .truncated op => .next (s.enterHalted .truncatedInstruction (.truncatedInstruction s.pc op))
  | .noWord => .next (s.enterHalted .pcOutOfBounds (.pcOutOfBounds s.pc))

/-- One step (R82): no meaning before the first `init` (R195); S1, a halted machine only reports (R83);
S2, nothing to fetch at `pc ≥ L` (R84); then S3 to S7. -/
def sequencerStep (s : State) : Result :=
  match s.program with
  | none => .refused .notInitialised
  | some P =>
    if s.halted then .next (s.emitDiag (.steppedWhileHalted s.pc))
    else if P.length ≤ s.pc.toNat then
      .next (s.enterHalted .pcOutOfBounds (.pcOutOfBounds s.pc))
    else fetchAndRun P s

end Sys2Proof.Machine
end

