-- ==== Sys2Proof/Machine/Step.lean ====
section
/-! DEFINITION. The step of the machine (40_sequencer.md R82), and where it fetches. -/

namespace Sys2Proof.Machine

/-- The `step` command of the host (R22, R82). -/
def step (s : State) : Host.Outcome State Fault Refusal := sequencerStep s

/-- The state whose next step fetches and runs the instruction whose words `w` numbers as
spec/opcode_table.json does (log 3): it stands for the host's load of a program. One word 0 stands after
the instruction's four, so that the longest instruction does not end the program. -/
def State.withFetchWord (s : State) (nbits w : Nat) : State := s.placeWords (tableWords nbits w ++ [0])

end Sys2Proof.Machine
end

