-- ==== Sys2Proof/Machine/Assembler.lean ====
section
/-! DEFINITION. The assembler's text form (30_encoding.md R66 to R75). It is toolchain, outside the
hardware block (00_scope.md R3): no operation of the machine uses this file. -/

namespace Sys2Proof.Machine

/-- A mnemonic's text (R57). -/
def mnemonicText : Mnemonic → Text
  | .movr => ['M', 'O', 'V', 'R']
  | .movv => ['M', 'O', 'V', 'V']
  | .add => ['A', 'D', 'D']
  | .sub => ['S', 'U', 'B']
  | .push => ['P', 'U', 'S', 'H']
  | .pop => ['P', 'O', 'P']
  | .jp => ['J', 'P']
  | .jl => ['J', 'L']
  | .call => ['C', 'A', 'L', 'L']
  | .ret => ['R', 'E', 'T']
  | .print => ['P', 'R', 'I', 'N', 'T']
  | .draw => ['D', 'R', 'A', 'W']
  | .cls => ['C', 'L', 'S']
  | .slp => ['S', 'L', 'P']
  | .halt => ['H', 'A', 'L', 'T']

/-- The sentinel −1 (R60). -/
def sentinel : Word := wrap32 (-1)

/-- The pieces of a text between the characters that satisfy `p`. -/
def splitAtChars (p : Char → Bool) : Text → List Text
  | [] => [[]]
  | c :: cs =>
    if p c then [] :: splitAtChars p cs
    else
      match splitAtChars p cs with
      | [] => [[c]]
      | t :: ts => (c :: t) :: ts

/-- White space inside a line. DESIGN CHOICE (log 18): space and tab, which is all that N17 of
91_not_in_source.md lets a reader assume. -/
def isBlankChar (c : Char) : Bool := c == ' ' || c == '\t'

/-- Discard from the first `//` on (R67). -/
def stripComment : Text → Text
  | '/' :: '/' :: _ => []
  | c :: cs => c :: stripComment cs
  | [] => []

/-- Upper-casing (R67); of the letters `a` to `z` (log 18). -/
def upperChar (c : Char) : Char := if 97 ≤ c.toNat ∧ c.toNat ≤ 122 then Char.ofNat (c.toNat - 32) else c

/-- The Token Line of one physical line (R67); empty for a line that is discarded. -/
def tokenizeLine (line : Text) : List Text :=
  (splitAtChars isBlankChar ((stripComment line).map upperChar)).filter fun t => !t.isEmpty

/-- The Token Lines of a source text (R67). -/
def tokenize (source : Text) : List (List Text) :=
  ((splitAtChars (fun c => c == '\n') source).map tokenizeLine).filter fun l => !l.isEmpty

/-- `opcode_of` (R69): the opcode of the mnemonic that the token is, letter case apart (upper-casing as in
log 18), or the sentinel. -/
def opcodeOf (token : Text) : Word :=
  match Mnemonic.all.find? fun m => mnemonicText m == token.map upperChar with
  | some m => m.opcode
  | none => sentinel

def isDigitChar (c : Char) : Bool := 48 ≤ c.toNat && c.toNat ≤ 57

/-- `register_index_of` (R70): exactly `R0` to `R9`. -/
def registerIndexOf : Text → Word
  | ['R', c] => if isDigitChar c then BitVec.ofNat 32 (c.toNat - 48) else sentinel
  | _ => sentinel

/-- One trailing comma stripped (R70, decision D22). -/
def stripComma (t : Text) : Text := if t.getLast? = some ',' then t.dropLast else t

/-- The value of a text of decimal digits, most significant first. -/
def digitsValue (t : Text) : Nat := t.foldl (fun v c => 10 * v + (c.toNat - 48)) 0

/-- One or more decimal digits. -/
def isDigits (t : Text) : Bool := !t.isEmpty && t.all isDigitChar

/-- A base-10 integer literal: an optional `-`, then digits (R71). -/
def literalValue? : Text → Option Int
  | '-' :: t => if isDigits t then some (-(digitsValue t : Int)) else none
  | t => if isDigits t then some (digitsValue t : Int) else none

/-- Literal resolution (R71): a value in −2^31 .. 2^31−1, anything else the sentinel. -/
def literalOf (t : Text) : Word :=
  match literalValue? t with
  | some v => if -2 ^ 31 ≤ v ∧ v < 2 ^ 31 then wrap32 v else sentinel
  | none => sentinel

/-- An operand token (R68): a register where it begins with `R`, else a literal. -/
def operandOf (t : Text) : Word :=
  match t with
  | 'R' :: _ => registerIndexOf (stripComma t)
  | _ => literalOf t

/-- One word per token, the mnemonic first (R68). -/
def encodeTokens : List Text → List Word
  | [] => []
  | m :: ts => opcodeOf m :: ts.map operandOf

/-- The assembler (R66 to R72): it never fails. -/
def assemble (source : Text) : List Word := (tokenize source).flatMap encodeTokens

/-- The text of one operand (R74): a register name, with a comma after it where `comma` says so (the
commas are optional), or the decimal text of the word, which takes no comma (R71). -/
def operandText (comma : Bool) : OperandKind → Word → Text
  | .reg, w => 'R' :: dec w ++ (if comma then [','] else [])
  | .lit, w => dec w
  | .addr, w => dec w

/-- The operand texts of a line; `commas` says in order which operands a comma may follow, and past its
end none does. -/
def operandTexts : List Bool → List OperandKind → List Word → List Text
  | cs, k :: ks, w :: ws => operandText (cs.headD false) k w :: operandTexts cs.tail ks ws
  | _, _, _ => []

/-- A source line of an instruction (R74): the mnemonic and the operands with a space before each, and
commas after the register operands that `commas` chooses. -/
def sourceLine (commas : List Bool) (i : Instr) : Text :=
  mnemonicText i.mnemonic ++ (operandTexts commas i.mnemonic.kinds i.operands).flatMap fun t => ' ' :: t

end Sys2Proof.Machine
end

