-- ==== Sys2Proof/Machine/Commands.lean ====
section
/-! DEFINITION. The host's commands: `init`, `step`, `run` (10_state.md R22; 40_sequencer.md R80, R81, R91). -/

namespace Sys2Proof.Machine

/-- `init(P, text0)` (R80), with its `Start` diagnostic (R81). A program longer than 2^31 − 1 words has
no meaning (R20, decision D4). -/
def initCommand (P : List Word) (text0 : Text) (s : State) : Result :=
  if Config.maxProgramLength < P.length then .refused .programTooLong
  else .next ((s.installProgram P text0).emitDiag (.start P.length))

/-- `run` (R91): steps until `halted`, none at all if it is set already (D26). `run` need not end
(R93), so the first argument bounds the steps, and `none` says that they did not suffice. -/
def runCommand : Nat → State → Option Result
  | 0, s => if s.halted then some (.next s) else none
  | n + 1, s =>
    if s.halted then some (.next s)
    else
      match step s with
      | .next t => runCommand n t
      | .fault f => some (.fault f)
      | .refused r => some (.refused r)

/-- A command of the host (R22); `run` carries the model's bound on its steps. -/
inductive Command where
  | init (P : List Word) (text0 : Text)
  | step
  | run (fuel : Nat)
deriving DecidableEq, Repr

/-- The block's answer to a command; `none` where a `run` has not ended within its bound. -/
def command (c : Command) (s : State) : Option Result :=
  match c with
  | .init P text0 => some (initCommand P text0 s)
  | .step => some (Sys2Proof.Machine.step s)
  | .run fuel => runCommand fuel s

end Sys2Proof.Machine
end

