-- ==== Sys2Proof/Safety.lean ====
section
/-! DEFINITION. What claims are stated in: the ways a run ends (60_exceptions.md R160, R173), the
invariant of the machine's states, and the states a host can bring the machine to. -/

namespace Sys2Proof.Machine

/-- The run ended normally (R173): `cause ∈ {HaltInstr, PcOutOfBounds}`. -/
def State.endedNormally (s : State) : Bool :=
  s.halted && (s.cause == .haltInstr || s.cause == .pcOutOfBounds)

/-- The causes 3 to 7, which leave no effect of the offending instruction (R168). -/
def Cause.isPrecise (c : Cause) : Bool := 3 ≤ c.code

/-- The registers an instruction names (R11). -/
def namedRegs (i : Instr) : List RegIx := i.regOperands.filterMap fun p => regIndex? p.2

/-- The operand word of the register an instruction writes (R11). -/
def writtenWord : Instr → Option Word
  | .movr dst _ => some dst
  | .movv dst _ => some dst
  | .add dst _ => some dst
  | .sub dst _ => some dst
  | .pop dst => some dst
  | .push _ => none
  | .jp _ => none
  | .jl _ _ _ => none
  | .call _ => none
  | .ret => none
  | .print _ => none
  | .draw _ _ _ => none
  | .cls => none
  | .slp _ => none
  | .halt => none

/-- The RUNNING state `s` after a control transfer to `target`, a word outside the program, at the end of
the step: `target` stands in `pc` and stage S7 has halted the machine (R89). -/
def State.leftProgram (s : State) (target : Word) : State :=
  { s with
    pc := target
    halted := true
    cause := .pcOutOfBounds
    events := s.events ++ [.diag .warning (.pcOutOfBounds target)] }

/-- The answer with a change made to its next state. -/
def mapNext (f : State → State) : Result → Result
  | .next t => .next (f t)
  | .fault e => .fault e
  | .refused r => .refused r

/-- Stage S4 for the opcode of `m` (R86; decisions D10, D14): where its operands run past the program,
whatever they are, the machine halts in place. (An opcode without operands is never truncated.) -/
def TruncationStops (m : Mnemonic) : Prop :=
  ∀ (s : State) (P : List Word),
    s.program = some P → s.halted = false → s.cause = .none → P[s.pc.toNat]? = some m.opcode →
    P.length ≤ s.pc.toNat + m.arity →
    Sys2Proof.Machine.step s = .next { s with
      halted := true
      cause := .truncatedInstruction
      events := s.events ++ [.diag .error (.truncatedInstruction s.pc m.opcode)] }

/-- Stage S5 for the instruction `i` (R87; decisions D11, D14): the first register operand, in ascending
position, that is not in 0 .. 9 halts the machine in place, before any effect. -/
def BadOperandStops (i : Instr) : Prop :=
  ∀ (s : State) (before after : List (Nat × Word)) (k : Nat) (w : Word),
    s.cause = .none → i.regOperands = before ++ (k, w) :: after →
    (∀ p ∈ before, 0 ≤ p.2.toInt ∧ p.2.toInt < 10) → ¬ (0 ≤ w.toInt ∧ w.toInt < 10) →
    exec i s = .next { s with
      halted := true
      cause := .operandIndexOutOfRange
      events := s.events ++ [.diag .error (.operandIndexOutOfRange s.pc i.opcode k w)] }

/-- `k` single steps, one after another, each answering a next state. -/
def StepsTo : Nat → State → State → Prop
  | 0, s, t => s = t
  | k + 1, s, t => s.halted = false ∧ ∃ m, step s = .next m ∧ StepsTo k m t

/-- What the recorded cause says of the state with program `P` (R18, R160): a RUNNING machine stands
inside the program, or at index 0 of an empty one (R84), and each cause is explained by the word at
`pc`, by `pc`, or by the parameters. -/
def CauseExplained (P : List Word) (s : State) : Prop :=
  match s.cause with
  | .none => s.pc.toNat < P.length ∨ (P = [] ∧ s.pc = 0)
  | .haltInstr => ∃ a, s.pc.toNat = a + 1 ∧ P[a]? = some 255
  | .pcOutOfBounds => P.length ≤ s.pc.toNat
  | .unknownOpcode => ∃ op, P[s.pc.toNat]? = some op ∧ mnemonicOf op = none
  | .operandIndexOutOfRange => ∃ i rest, decodeAt P s.pc.toNat = .instr i rest ∧ i.WellFormed = false
  | .truncatedInstruction =>
    ∃ op m, P[s.pc.toNat]? = some op ∧ mnemonicOf op = some m ∧
      s.pc.toNat < P.length ∧ P.length ≤ s.pc.toNat + m.arity
  | .stackOverflow => s.pc.toNat < P.length ∧ stackFull s = true
  | .arithOverflow => s.pc.toNat < P.length ∧ s.params.arithOverflow = .fault

/-- The invariant of the machine's states. -/
structure Inv (s : State) : Prop where
  /-- `cause` is `None` exactly while RUNNING (R18). -/
  causeNone : s.cause = .none ↔ s.halted = false
  /-- The installed program has a legal length (R20). -/
  storeWf : ∀ P, s.program = some P → Memory.wf P
  /-- The cause and `pc` agree with the program (R160). -/
  explained : ∀ P, s.program = some P → CauseExplained P s
  /-- The stack is never longer than a finite `STACK_DEPTH` (R15). -/
  depth : ∀ d, s.params.stackDepth = some d → s.stack.length ≤ d

/-- The states a host can reach from power-on by `init` and `step` (R22); `run` is steps (R91). -/
inductive Reachable : State → Prop where
  | powerOn (params : Config.Params) (regInit : Vector Word Config.nregs) :
      Reachable (State.powerOn params regInit)
  | init {s t : State} (P : List Word) (text0 : Text) :
      Reachable s → initCommand P text0 s = .next t → Reachable t
  | step {s t : State} : Reachable s → Sys2Proof.Machine.step s = .next t → Reachable t

end Sys2Proof.Machine
end

