-- ==== Sys2Proof/Certificates/Slice0/Obligations.lean ====
section
/-! DEFINITION. The statements about the machine, one definition each; OBLIGATIONS.json lists them with
the rules they rest on. Where a clause rests on a choice the spec marks as its own, the docstring names
the decision `D<n>` of 92_eei_decisions.md. -/

open Sys2Proof
open Sys2Proof.Machine

/-! Encoding and decoding -/

/-- Words written out from the table of 30_encoding.md R57 decode to the instruction they stand for:
one word list for each of the eight formats. -/
def Obligations.WrittenWordsDecodeAsTheMapSays : Prop :=
  decode [10, 1, 0] = .instr (.movr 1 0) [] ∧
  decode [11, 3, 0xFFFFFFFF] = .instr (.movv 3 0xFFFFFFFF) [] ∧
  decode [31, 9] = .instr (.pop 9) [] ∧
  decode [42, 8, 255] = .instr (.call 8) [255] ∧
  decode [41, 1, 2, 12] = .instr (.jl 1 2 12) [] ∧
  decode [50] = .instr .ret [] ∧
  decode [61, 0, 1, 2, 62] = .instr (.draw 0 1 2) [62] ∧
  decode [70, 500] = .instr (.slp 500) []

/-- The reverse lookup and the mnemonic table agree on each of the 15 (R75; 95_test_vectors.md S1). -/
def Obligations.MnemonicLookupRoundTrips : Prop :=
  ∀ m : Mnemonic, mnemonicOf (opcodeOf (mnemonicText m)) = some m ∧ opcodeOf (mnemonicText m) = m.opcode

/-- R53: the whole word is compared, as a signed integer, with the 15 values, and nothing is masked. -/
def Obligations.OnlyFifteenOpcodeWordsAreKnown : Prop :=
  ∀ (op : Word) (ws : List Word),
    decode (op :: ws) = .unknownOpcode op ↔
      op.toInt ∉ ([10, 11, 20, 21, 30, 31, 40, 41, 42, 50, 60, 61, 62, 70, 255] : List Int)

/-- Decoding and encoding agree on one instruction, in both directions, whatever words follow. -/
def Obligations.DecodeAndEncodeAgree : Prop :=
  ∀ (ws rest : List Word) (i : Instr), decode ws = .instr i rest ↔ ws = encode i ++ rest

/-- Decoding and encoding agree on whole programs: the words of a sequence of instructions, written
with no separators (R50), decode sequentially (R52) to exactly that sequence, and only they do. -/
def Obligations.ProgramDecodingIsExact : Prop :=
  ∀ (ws : List Word) (is : List Instr), decodeProgram ws = some is ↔ ws = encodeProgram is

/-- R61, which the spec marks as derived: at every index inside a program the decoder yields one of its
three outcomes, and the word there and the words left decide which. -/
def Obligations.DecoderOutcomesAreDecidedByTheWords : Prop :=
  ∀ (P : List Word) (a : Nat) (h : a < P.length),
    (mnemonicOf P[a] = none → decodeAt P a = .unknownOpcode P[a]) ∧
    (∀ m, mnemonicOf P[a] = some m → P.length ≤ a + m.arity → decodeAt P a = .truncated P[a]) ∧
    (∀ m, mnemonicOf P[a] = some m → a + m.arity < P.length →
      ∃ i, decodeAt P a = .instr i (P.drop (a + 1 + m.arity)) ∧ i.mnemonic = m ∧
        i.operands = (P.drop (a + 1)).take m.arity)

/-! The stages of a step -/

/-- A step of a RUNNING machine at the words of an instruction is `exec` of that instruction, then the
bound check of R89: a new `pc ≥ L` halts a machine that is still RUNNING. -/
def Obligations.StepRunsTheDecodedInstruction : Prop :=
  ∀ (s : State) (P rest : List Word) (i : Instr),
    s.program = some P → s.halted = false → P.drop s.pc.toNat = encode i ++ rest →
    step s = mapNext (fun t =>
      if P.length ≤ t.pc.toNat ∧ t.halted = false then
        { t with
          halted := true
          cause := if t.cause = .none then .pcOutOfBounds else t.cause
          events := t.events ++ [.diag .warning (.pcOutOfBounds t.pc)] }
      else t) (exec i s)

/-- R83: a step of a HALTED machine changes no state; its diagnostic is a warning by decision D18. -/
def Obligations.StepWhileHaltedOnlyReports : Prop :=
  ∀ (s : State) (P : List Word), s.program = some P → s.halted = true →
    step s = .next { s with events := s.events ++ [.diag .warning (.steppedWhileHalted s.pc)] }

/-- R84 (decision D9): a RUNNING machine with `pc ≥ L` at the start of a step halts normally. -/
def Obligations.StepWithNothingToFetchHalts : Prop :=
  ∀ (s : State) (P : List Word),
    s.program = some P → s.halted = false → s.cause = .none → P.length ≤ s.pc.toNat →
    step s = .next { s with
      halted := true
      cause := .pcOutOfBounds
      events := s.events ++ [.diag .warning (.pcOutOfBounds s.pc)] }

/-- R85, R152 (decisions D12, D27): a word that is no opcode halts the machine in place. -/
def Obligations.UnknownOpcodeHaltsInPlace : Prop :=
  ∀ (s : State) (P : List Word) (op : Word),
    s.program = some P → s.halted = false → s.cause = .none → P[s.pc.toNat]? = some op →
    op.toInt ∉ ([10, 11, 20, 21, 30, 31, 40, 41, 42, 50, 60, 61, 62, 70, 255] : List Int) →
    step s = .next { s with
      halted := true
      cause := .unknownOpcode
      events := s.events ++ [.diag .error (.unknownOpcode op.toInt none s.pc)] }

/-- R86, R164 (decision D10): every known opcode whose operands run past the program halts the machine
in place, whatever its operand words are (decision D14). -/
def Obligations.TruncatedInstructionHaltsInPlace : Prop :=
  ∀ m : Mnemonic, TruncationStops m

/-- R87 (decisions D11, D14): for every instruction the first register operand, in ascending position,
that is not in 0 .. 9 halts the machine in place, before any effect of the instruction. -/
def Obligations.FirstBadRegisterOperandHaltsInPlace : Prop :=
  ∀ i : Instr, BadOperandStops i

/-- R195 (decision D7): a step before the first `init` has no meaning. -/
def Obligations.StepBeforeInitIsRefused : Prop :=
  ∀ s : State, s.program = none → step s = .refused .notInitialised

/-- R90, which the spec marks as derived: with a program installed, `step` is total. -/
def Obligations.EveryStepOfAProgramAnswers : Prop :=
  ∀ (s : State) (P : List Word), s.program = some P → ∃ t, step s = .next t

/-! The instructions. A register operand is a word `w` with `s(w)` in 0 .. 9; the other words are the
business of `FirstBadRegisterOperandHaltsInPlace`. Each next state names all that changes. -/

/-- R100, MOVR, whole: its words, its two exceptions (word 1 checked before word 2), its effect. -/
def Obligations.MovrCopiesARegister : Prop :=
  (∀ w1 w2 : Word, encode (.movr w1 w2) = [10, w1, w2]) ∧
  TruncationStops .movr ∧ (∀ w1 w2 : Word, BadOperandStops (.movr w1 w2)) ∧
  ∀ (s : State) (w1 w2 : Word) (d r : RegIx), w1.toInt = (d.val : Int) → w2.toInt = (r.val : Int) →
    exec (.movr w1 w2) s = .next { s with regs := s.regs.set d (s.getReg r), pc := s.pc + 3 }

/-- R101, MOVV, whole: its words, its two exceptions, its effect. Every literal is legal and is the value
itself. -/
def Obligations.MovvLoadsTheLiteral : Prop :=
  (∀ w1 lit : Word, encode (.movv w1 lit) = [11, w1, lit]) ∧
  TruncationStops .movv ∧ (∀ w1 lit : Word, BadOperandStops (.movv w1 lit)) ∧
  ∀ (s : State) (w1 lit : Word) (d : RegIx), w1.toInt = (d.val : Int) →
    exec (.movv w1 lit) s = .next { s with regs := s.regs.set d lit, pc := s.pc + 3 }

/-- R110, ADD: the exact sum wrapped into 32 bits; under `ARITH_OVERFLOW = fault` (decision D2) a sum
that does not fit raises and writes nothing. -/
def Obligations.AddWritesTheSum : Prop :=
  ∀ (s : State) (w1 w2 : Word) (d r : RegIx), w1.toInt = (d.val : Int) → w2.toInt = (r.val : Int) →
    let v := (s.getReg d).toInt + (s.getReg r).toInt
    ((s.params.arithOverflow = .wrap ∨ (-2 ^ 31 ≤ v ∧ v < 2 ^ 31)) →
      exec (.add w1 w2) s = .next { s with regs := s.regs.set d (wrap32 v), pc := s.pc + 3 }) ∧
    (s.params.arithOverflow = .fault → ¬ (-2 ^ 31 ≤ v ∧ v < 2 ^ 31) → s.cause = .none →
      exec (.add w1 w2) s = .next { s with
        halted := true
        cause := .arithOverflow
        events := s.events ++ [.diag .error (.arithOverflow s.pc 20)] })

/-- R111, SUB: the destination is the minuend; overflow as for ADD. -/
def Obligations.SubWritesTheDifference : Prop :=
  ∀ (s : State) (w1 w2 : Word) (d r : RegIx), w1.toInt = (d.val : Int) → w2.toInt = (r.val : Int) →
    let v := (s.getReg d).toInt - (s.getReg r).toInt
    ((s.params.arithOverflow = .wrap ∨ (-2 ^ 31 ≤ v ∧ v < 2 ^ 31)) →
      exec (.sub w1 w2) s = .next { s with regs := s.regs.set d (wrap32 v), pc := s.pc + 3 }) ∧
    (s.params.arithOverflow = .fault → ¬ (-2 ^ 31 ≤ v ∧ v < 2 ^ 31) → s.cause = .none →
      exec (.sub w1 w2) s = .next { s with
        halted := true
        cause := .arithOverflow
        events := s.events ++ [.diag .error (.arithOverflow s.pc 21)] })

/-- R120, PUSH: the register goes on top; on a full stack of finite depth (decision D6) nothing does. -/
def Obligations.PushPutsTheRegisterOnTop : Prop :=
  ∀ (s : State) (w1 : Word) (r : RegIx), w1.toInt = (r.val : Int) →
    ((∀ d, s.params.stackDepth = some d → s.stack.length < d) →
      exec (.push w1) s = .next { s with stack := s.getReg r :: s.stack, pc := s.pc + 2 }) ∧
    (∀ d, s.params.stackDepth = some d → d ≤ s.stack.length → s.cause = .none →
      exec (.push w1) s = .next { s with
        halted := true
        cause := .stackOverflow
        events := s.events ++ [.diag .error (.stackOverflow s.pc 30)] })

/-- R121, POP, whole, with R16's `pop()`: its words, its two exceptions (the stack untouched), the top
entry taken, and 0 from an empty stack, which stays empty with the machine RUNNING. -/
def Obligations.PopTakesTheTopOrZero : Prop :=
  (∀ w1 : Word, encode (.pop w1) = [31, w1]) ∧
  TruncationStops .pop ∧ (∀ w1 : Word, BadOperandStops (.pop w1)) ∧
  ∀ (s : State) (w1 : Word) (d : RegIx), w1.toInt = (d.val : Int) →
    (∀ v st, s.stack = v :: st →
      exec (.pop w1) s = .next { s with regs := s.regs.set d v, stack := st, pc := s.pc + 2 }) ∧
    (s.stack = [] →
      exec (.pop w1) s = .next { s with regs := s.regs.set d 0, pc := s.pc + 2 })

/-- R130, JP, whole: its words, its one exception, its effect, and the end of the run at a target that
read unsigned is `≥ L`. -/
def Obligations.JpGoesToTheAddress : Prop :=
  (∀ addr : Word, encode (.jp addr) = [40, addr]) ∧ TruncationStops .jp ∧
  (∀ (s : State) (addr : Word), exec (.jp addr) s = .next { s with pc := addr }) ∧
  (∀ (s : State) (P rest : List Word) (addr : Word),
    s.program = some P → s.halted = false → s.cause = .none → P.drop s.pc.toNat = 40 :: addr :: rest →
    P.length ≤ addr.toNat →
    step s = .next { s with
      pc := addr
      halted := true
      cause := .pcOutOfBounds
      events := s.events ++ [.diag .warning (.pcOutOfBounds addr)] })

/-- R131, JL: strict comparison, signed by decision D20; not taken, the target word is ignored. -/
def Obligations.JlBranchesOnSignedLess : Prop :=
  ∀ (s : State) (w1 w2 addr : Word) (a b : RegIx), w1.toInt = (a.val : Int) → w2.toInt = (b.val : Int) →
    ((s.getReg a).toInt < (s.getReg b).toInt → exec (.jl w1 w2 addr) s = .next { s with pc := addr }) ∧
    ((s.getReg b).toInt ≤ (s.getReg a).toInt → exec (.jl w1 w2 addr) s = .next { s with pc := s.pc + 4 })

/-- R132, CALL: the old `pc + 2` goes on the stack; a full stack of finite depth (decision D6) raises. -/
def Obligations.CallPushesTheReturnIndex : Prop :=
  ∀ (s : State) (addr : Word),
    ((∀ d, s.params.stackDepth = some d → s.stack.length < d) →
      exec (.call addr) s = .next { s with stack := (s.pc + 2) :: s.stack, pc := addr }) ∧
    (∀ d, s.params.stackDepth = some d → d ≤ s.stack.length → s.cause = .none →
      exec (.call addr) s = .next { s with
        halted := true
        cause := .stackOverflow
        events := s.events ++ [.diag .error (.stackOverflow s.pc 42)] })

/-- R133, RET, whole: its one word; the top entry becomes `pc`; an empty stack gives index 0 and stays
empty; and a popped word that read unsigned is `≥ L` ends the run with `PcOutOfBounds`. -/
def Obligations.RetPopsIntoThePc : Prop :=
  encode .ret = [50] ∧
  (∀ (s : State) (v : Word) (st : List Word), s.stack = v :: st →
    exec .ret s = .next { s with stack := st, pc := v }) ∧
  (∀ s : State, s.stack = [] → exec .ret s = .next { s with pc := 0 }) ∧
  (∀ (s : State) (P rest : List Word) (v : Word) (st : List Word),
    s.program = some P → s.halted = false → s.cause = .none → P.drop s.pc.toNat = 50 :: rest →
    s.stack = v :: st → P.length ≤ v.toNat →
    step s = .next { s with
      stack := st
      pc := v
      halted := true
      cause := .pcOutOfBounds
      events := s.events ++ [.diag .warning (.pcOutOfBounds v)] })

/-- R140, PRINT: the decimal text and the separator are appended, the digits alone are mirrored. The
form of the text is decision D15, stated apart in `DecimalTextIsExact`. -/
def Obligations.PrintAppendsTheDecimalText : Prop :=
  ∀ (s : State) (w1 : Word) (r : RegIx), w1.toInt = (r.val : Int) →
    exec (.print w1) s = .next { s with
      out := s.out ++ dec (s.getReg r) ++ s.params.printSep
      events := s.events ++ [.mirror (dec (s.getReg r))]
      pc := s.pc + 2 }

/-- R141, DRAW: both coordinates signed and unchecked (decision D16), the colour the low 8 bits, that is
the word modulo 256. -/
def Obligations.DrawEmitsThePixel : Prop :=
  ∀ (s : State) (w1 w2 w3 : Word) (a b c : RegIx), w1.toInt = (a.val : Int) → w2.toInt = (b.val : Int) →
    w3.toInt = (c.val : Int) →
    exec (.draw w1 w2 w3) s = .next { s with
      events := s.events ++
        [.setPixel (s.getReg a).toInt (s.getReg b).toInt (BitVec.ofNat 8 ((s.getReg c).toNat % 256))]
      pc := s.pc + 4 }

/-- R142, CLS, whole: its one word; the display is told to clear and nothing else changes but `pc`. -/
def Obligations.ClsEmitsClear : Prop :=
  encode .cls = [62] ∧
  ∀ s : State, exec .cls s = .next { s with events := s.events ++ [.clear], pc := s.pc + 1 }

/-- R150, SLP: the sleep event with the signed literal, a negative one too (decision D17). -/
def Obligations.SlpEmitsTheDuration : Prop :=
  ∀ (s : State) (ms : Word),
    exec (.slp ms) s = .next { s with events := s.events ++ [.sleep ms.toInt], pc := s.pc + 2 }

/-- R151, HALT: HALTED with cause `HaltInstr` and `pc` past the word; the info line is decision D18. -/
def Obligations.HaltEntersHalted : Prop :=
  ∀ s : State, s.cause = .none →
    exec .halt s = .next { s with
      halted := true
      cause := .haltInstr
      events := s.events ++ [.diag .info (.halt s.pc)]
      pc := s.pc + 1 }

/-! What the instructions leave alone, and what they cannot see -/

/-- R11: no instruction writes a register that its destination operand does not name, and those without
a destination write none. -/
def Obligations.OnlyTheDestinationRegisterChanges : Prop :=
  ∀ (i : Instr) (s t : State) (q : RegIx), exec i s = .next t →
    (∀ w, writtenWord i = some w → w.toInt ≠ (q.val : Int)) → t.getReg q = s.getReg q

/-- R15, R16, R30: the stack is changed by PUSH, POP, CALL and RET only, and only at its top: what lies
below one removed entry stays. -/
def Obligations.OnlyTheTopOfTheStackChanges : Prop :=
  ∀ (i : Instr) (s t : State), exec i s = .next t →
    (t.stack = s.stack ∨ (∃ v, t.stack = v :: s.stack) ∨ t.stack = s.stack.tail) ∧
    (t.stack ≠ s.stack → ∃ w, i = .push w ∨ i = .pop w ∨ i = .call w ∨ i = .ret)

/-- R21, whole: `init` sets the output buffer to its argument; PRINT of a register appends that register's
text, executed and stepped (the text's form, the separator too, is decision D15); nothing else writes it,
in an instruction or in any other stage of a step; and no instruction reads it: with more text in front of
it, every instruction does the same. -/
def Obligations.OutputIsWrittenByInitAndPrintOnly : Prop :=
  (∀ (P : List Word) (text0 : Text) (s t : State), initCommand P text0 s = .next t → t.out = text0) ∧
  (∀ (s : State) (w : Word) (r : RegIx), w.toInt = (r.val : Int) →
    ∃ t, exec (.print w) s = .next t ∧ t.out = s.out ++ dec (s.getReg r) ++ s.params.printSep) ∧
  (∀ (s : State) (P rest : List Word) (w : Word) (r : RegIx), s.program = some P → s.halted = false →
    P.drop s.pc.toNat = encode (.print w) ++ rest → w.toInt = (r.val : Int) →
    ∃ t, step s = .next t ∧ t.out = s.out ++ dec (s.getReg r) ++ s.params.printSep) ∧
  (∀ (i : Instr) (s t : State), exec i s = .next t → (∀ w, i ≠ .print w) → t.out = s.out) ∧
  (∀ s t : State, step s = .next t → t.out = s.out ∨
    ∃ (P rest : List Word) (w : Word) (r : RegIx), s.program = some P ∧ s.halted = false ∧
      P.drop s.pc.toNat = encode (.print w) ++ rest ∧ w.toInt = (r.val : Int) ∧
      t.out = s.out ++ dec (s.getReg r) ++ s.params.printSep) ∧
  (∀ (i : Instr) (s : State) (o : Text),
    exec i { s with out := o ++ s.out } = mapNext (fun t => { t with out := o ++ t.out }) (exec i s))

/-- R20, R41, R5: no step writes the program store, and none changes a parameter. -/
def Obligations.ProgramAndParametersAreConstant : Prop :=
  ∀ s t : State, step s = .next t → t.program = s.program ∧ t.params = s.params

/-- The event trace only grows. Under a step this is R23's concatenation of the steps' events; that the
record runs on across `init` is the model's own choice (log 6, DESIGN CHOICE), since R23's trace is that of
one run. -/
def Obligations.EventTraceOnlyGrows : Prop :=
  (∀ s t : State, step s = .next t → s.events <+: t.events) ∧
  (∀ (P : List Word) (text0 : Text) (s t : State), initCommand P text0 s = .next t → s.events <+: t.events)

/-- R11: an instruction neither reads nor writes a register it does not name: changing such a register
before it is changing it after it, whatever the outcome. -/
def Obligations.UnnamedRegistersAreInvisible : Prop :=
  ∀ (i : Instr) (s : State) (q : RegIx) (v : Word), q ∉ namedRegs i →
    exec i (s.setReg q v) = mapNext (fun t => t.setReg q v) (exec i s)

/-- R21, R23, R172: no rule of the machine reads the text-output buffer or the event trace: with any text
and any events in front of them a step does the same. -/
def Obligations.OutputHistoryIsNotRead : Prop :=
  ∀ (s : State) (o : Text) (ev : List Event),
    step { s with out := o ++ s.out, events := ev ++ s.events } =
      mapNext (fun t => { t with out := o ++ t.out, events := ev ++ t.events }) (step s)

/-- R166: with the default parameters neither `ArithOverflow` nor `StackOverflow` can occur (decisions
D2, D6). -/
def Obligations.DefaultParametersRaiseNothing : Prop :=
  ∀ s t : State, step s = .next t →
    (s.params.arithOverflow = .wrap → s.cause ≠ .arithOverflow → t.cause ≠ .arithOverflow) ∧
    (s.params.stackDepth = none → s.cause ≠ .stackOverflow → t.cause ≠ .stackOverflow)

/-- R112: under wrap-around the result bits are those of unsigned addition and subtraction, so the
signedness of ADD and SUB cannot be seen in them (decision D2). -/
def Obligations.WrappedResultsIgnoreSignedness : Prop :=
  ∀ (s t u : State) (w1 w2 : Word) (d r : RegIx), w1.toInt = (d.val : Int) → w2.toInt = (r.val : Int) →
    s.params.arithOverflow = .wrap → exec (.add w1 w2) s = .next t → exec (.sub w1 w2) s = .next u →
    (t.getReg d).toNat = ((s.getReg d).toNat + (s.getReg r).toNat) % 2 ^ 32 ∧
    (u.getReg d).toNat = (2 ^ 32 + (s.getReg d).toNat - (s.getReg r).toNat) % 2 ^ 32

/-! Halting -/

/-- R92, the state machine, whole: RUNNING after `init`; HALTED is left by no step; HALT, a counter out
of bounds, an unknown opcode and the fatal errors (a truncated instruction, a bad operand, a full stack,
an overflow) lead to HALTED; RUNNING to RUNNING is a completed instruction and nothing else. -/
def Obligations.HaltedIsTerminalUntilInit : Prop :=
  (∀ (P : List Word) (text0 : Text) (s t : State), initCommand P text0 s = .next t → t.halted = false) ∧
  (∀ s t : State, step s = .next t → s.halted = true → t.halted = true) ∧
  (∀ (s t : State) (P : List Word), s.program = some P → s.halted = false → step s = .next t →
    (P[s.pc.toNat]? = some 255 → t.halted = true) ∧
    (P.length ≤ t.pc.toNat → t.halted = true) ∧
    (∀ op, P[s.pc.toNat]? = some op → mnemonicOf op = none → t.halted = true) ∧
    (∀ m : Mnemonic, P[s.pc.toNat]? = some m.opcode → P.length ≤ s.pc.toNat + m.arity → t.halted = true) ∧
    (∀ i rest, P.drop s.pc.toNat = encode i ++ rest → i.WellFormed = false → t.halted = true) ∧
    (t.cause = .stackOverflow ∨ t.cause = .arithOverflow → s.cause = .none → t.halted = true) ∧
    (t.halted = false → ∃ i rest, P.drop s.pc.toNat = encode i ++ rest ∧ i.WellFormed = true ∧
      exec i s = .next t))

/-- R168 (decisions D11, D12): the causes 3 to 7 are precise: nothing but `halted`, `cause` and one
error diagnostic distinguishes the state from the one before the step. -/
def Obligations.FatalErrorsArePrecise : Prop :=
  ∀ s t : State, step s = .next t → s.halted = false → s.cause = .none → t.cause.isPrecise = true →
    ∃ d : Diag, t = { s with halted := true, cause := t.cause, events := s.events ++ [.diag .error d] }

/-- R91, D26: `run` ends in `t` exactly when `t` is the first HALTED state of the sequence of steps, and
a machine that is HALTED already makes no step. The bound `n` on the steps is the model's own choice
(log 13, DESIGN CHOICE; R93 lets a model use fuel): `run` itself has none. -/
def Obligations.RunIsStepsUntilHalted : Prop :=
  ∀ (n : Nat) (s t : State),
    runCommand n s = some (.next t) ↔ ∃ k, k ≤ n ∧ StepsTo k s t ∧ t.halted = true

/-! Reset, `init` and the invariant -/

/-- R25, R190: power-on, for any `REG_INIT` and any parameters. The stack and the output buffer at
power-on are the model's choice (log 2) and are not stated; the reset state is one such state. -/
def Obligations.PowerOnState : Prop :=
  (∀ (p : Config.Params) (x : Vector Word Config.nregs),
    (State.powerOn p x).pc = 0 ∧ (State.powerOn p x).halted = false ∧ (State.powerOn p x).cause = .none ∧
    (State.powerOn p x).program = none ∧ (State.powerOn p x).regs = x) ∧
  ∃ p x, State.reset = State.powerOn p x

/-- R80, R81, R191 (decisions D7, D8, D18): what `init` sets, and that it leaves the registers; a
program longer than 2^31 − 1 words is refused (decision D4). R81 gives the `Start` event; that it follows
the events recorded before `init`, so that the record runs on across runs, is the model's own choice
(log 6, DESIGN CHOICE; R23's trace is that of one run). -/
def Obligations.InitStartsARun : Prop :=
  ∀ (s : State) (P : List Word) (text0 : Text),
    (P.length ≤ 2 ^ 31 - 1 → initCommand P text0 s = .next { s with
      program := some P
      pc := 0
      stack := []
      halted := false
      cause := .none
      out := text0
      events := s.events ++ [.diag .info (.start P.length)] }) ∧
    (2 ^ 31 - 1 < P.length → initCommand P text0 s = .refused .programTooLong)

/-- The reset state, and every power-on state, satisfies the invariant. R25 gives `pc`, `halted`, `cause`
and the absence of a program. It does not give the stack: that the stack keeps within its depth at power-on
rests on the model's own choice of an empty one (log 2, DESIGN CHOICE). -/
def Obligations.PowerOnSatisfiesTheInvariant : Prop :=
  Inv State.reset ∧ ∀ p x, Inv (State.powerOn p x)

/-- `init` establishes the invariant from every state, HALTED or RUNNING. -/
def Obligations.InitEstablishesTheInvariant : Prop :=
  ∀ (P : List Word) (text0 : Text) (s t : State), initCommand P text0 s = .next t → Inv t

/-- Every step keeps the invariant: `cause` is `None` exactly while RUNNING (R18), the program has a
legal length (R20), a RUNNING machine stands inside its program (R84), each cause is explained by the
word at `pc`, by `pc` or by the parameters (R160), and the stack keeps within its depth (R15). -/
def Obligations.StepKeepsTheInvariant : Prop :=
  ∀ s t : State, Inv s → step s = .next t → Inv t

/-- Every state a host can reach from any power-on state by `init` and `step` satisfies the invariant,
and a step from it answers a next state unless no `init` has been given yet, when it is refused (decision
D7). The stack's depth in the power-on state, where no content is specified (R195), rests on the model's
own choice of an empty stack (log 2, DESIGN CHOICE). -/
def Obligations.ReachableStatesAreSound : Prop :=
  ∀ s : State, Reachable s →
    Inv s ∧ ((∃ t, step s = .next t) ∨ (s.program = none ∧ step s = .refused .notInitialised))

/-! Control flow -/

/-- R13, R132, which the spec marks as derived: at an instruction inside a program of legal length,
`pc + width` does not wrap and is at most `L`; the return index a CALL pushes is that same number, read
signed too. -/
def Obligations.NextIndexDoesNotWrap : Prop :=
  ∀ (P rest : List Word) (pc : Word) (i : Instr), P.length ≤ 2 ^ 31 - 1 →
    P.drop pc.toNat = encode i ++ rest →
    (pc + BitVec.ofNat 32 i.width).toNat = pc.toNat + i.width ∧ pc.toNat + i.width ≤ P.length ∧
    (∀ addr, i = .call addr → (pc + 2).toInt = (pc.toNat : Int) + 2)

/-- R14 (decision D3): a negative word written to `pc` ends the run in the same step, with the word in
`pc`: by JP, by a taken JL, by a CALL (the return index stays on the stack; a full stack raises instead,
see `CallPushesTheReturnIndex`) and by a RET that pops it. -/
def Obligations.NegativeTargetEndsTheRun : Prop :=
  ∀ (s : State) (P rest : List Word) (w : Word),
    s.program = some P → P.length ≤ 2 ^ 31 - 1 → s.halted = false → s.cause = .none → w.toInt < 0 →
    (P.drop s.pc.toNat = 40 :: w :: rest → step s = .next (s.leftProgram w)) ∧
    (∀ (w1 w2 : Word) (a b : RegIx), w1.toInt = (a.val : Int) → w2.toInt = (b.val : Int) →
      P.drop s.pc.toNat = 41 :: w1 :: w2 :: w :: rest → (s.getReg a).toInt < (s.getReg b).toInt →
      step s = .next (s.leftProgram w)) ∧
    (P.drop s.pc.toNat = 42 :: w :: rest → (∀ d, s.params.stackDepth = some d → s.stack.length < d) →
      step s = .next (({ s with stack := (s.pc + 2) :: s.stack } : State).leftProgram w)) ∧
    (∀ st : List Word, P.drop s.pc.toNat = 50 :: rest → s.stack = w :: st →
      step s = .next (({ s with stack := st } : State).leftProgram w))

/-- R132, R133, R135: a RET whose stack is the one its CALL left goes to the CALL's own index plus 2 and
leaves the stack as it was before the CALL, whatever else has happened in between. -/
def Obligations.RetReturnsPastItsCall : Prop :=
  ∀ (s t u v : State) (addr : Word), s.params.stackDepth = none →
    exec (.call addr) s = .next t → u.stack = t.stack → exec .ret u = .next v →
    v.pc = s.pc + 2 ∧ v.stack = s.stack

/-- R134, R198: the stack is untagged, so a PUSH followed by a RET jumps to the register's value. -/
def Obligations.RetTakesAPushedDataWord : Prop :=
  ∀ (s t u : State) (w1 : Word) (r : RegIx), w1.toInt = (r.val : Int) → s.params.stackDepth = none →
    exec (.push w1) s = .next t → exec .ret t = .next u →
    u = { s with pc := s.getReg r }

/-! Text -/

/-- R143 (decision D15): `dec(w)` is a `-` exactly for a negative value, then decimal digits whose value
is `|s(w)|`, at least one of them, and no leading zero but in `0` itself. -/
def Obligations.DecimalTextIsExact : Prop :=
  ∀ w : Word, ∃ ds : Text,
    dec w = (if w.toInt < 0 then '-' :: ds else ds) ∧ isDigits ds = true ∧
    digitsValue ds = w.toInt.natAbs ∧ (ds.head? = some '0' → ds = ['0'])

/-- R74, R70: a source line of a well-formed instruction assembles to the instruction's words, whichever
of its register operands are followed by a comma (none; every one but the last, as R74 writes the lines;
all of them). -/
def Obligations.SourceLineAssemblesToItsWords : Prop :=
  ∀ (commas : List Bool) (i : Instr), i.WellFormed = true → assemble (sourceLine commas i) = encode i

/-- R69: `opcode_of` gives the opcode of the mnemonic that a text is, whatever the case of its letters
(`movr`, `MovR`), and −1 for any other text, a mnemonic with a comma included. Which letters have an upper
case is the model's own choice (log 18, DESIGN CHOICE). -/
def Obligations.MnemonicsMatchWhateverTheirCase : Prop :=
  (∀ (t : Text) (m : Mnemonic), t.map upperChar = mnemonicText m → opcodeOf t = m.opcode) ∧
  (∀ t : Text, (∀ m, t.map upperChar ≠ mnemonicText m) → opcodeOf t = BitVec.ofInt 32 (-1)) ∧
  (∀ t : Text, opcodeOf (t ++ [',']) = BitVec.ofInt 32 (-1))

/-- R70: an operand that begins with `R` gives the index of `R0` to `R9`, with or without one trailing
comma, and −1 otherwise; any other token keeps its comma and gives −1 (R71). That one comma only is
stripped is decision D22. -/
def Obligations.RegisterTokensResolveExactly : Prop :=
  (∀ d : Nat, d < 10 →
    operandOf ['R', digitChar d] = BitVec.ofNat 32 d ∧ operandOf ['R', digitChar d, ','] = BitVec.ofNat 32 d) ∧
  (∀ t : Text, (∀ d, d < 10 → t ≠ [digitChar d] ∧ t ≠ [digitChar d, ',']) →
    operandOf ('R' :: t) = BitVec.ofInt 32 (-1)) ∧
  (∀ t : Text, t.head? ≠ some 'R' → operandOf (t ++ [',']) = BitVec.ofInt 32 (-1))

/-- R75: a source text whose every line is blank once its comment is gone assembles to the empty program. -/
def Obligations.BlankSourceAssemblesToNothing : Prop :=
  ∀ source : Text,
    (∀ line ∈ splitAtChars (fun c => c == '\n') source, ∀ c ∈ stripComment line, c = ' ' ∨ c = '\t') →
    assemble source = []
end

