-- ==== Sys2Proof/Laws/Decode.lean ====
section
/-! SUPPORT. The opcode map is one to one; what the decoder answers, once for each outcome. -/

namespace Sys2Proof

theorem Mnemonic.mem_all (m : Mnemonic) : m ∈ Mnemonic.all := by cases m <;> decide

theorem Mnemonic.opcode_injective {m n : Mnemonic} (h : m.opcode = n.opcode) : m = n := by
  revert h; cases m <;> cases n <;> decide

@[simp] theorem mnemonicOf_opcode (m : Mnemonic) : mnemonicOf m.opcode = some m := by
  cases m <;> decide

/-- The lookup finds `m` exactly at `m`'s opcode. -/
theorem mnemonicOf_eq_some {op : Word} {m : Mnemonic} : mnemonicOf op = some m ↔ op = m.opcode := by
  constructor
  · intro h
    have e := List.find?_some h
    exact (eq_of_beq e).symm
  · rintro rfl
    exact mnemonicOf_opcode m

/-- A word without a mnemonic is none of the opcodes. -/
theorem mnemonicOf_eq_none {op : Word} : mnemonicOf op = none ↔ ∀ m : Mnemonic, op ≠ m.opcode := by
  constructor
  · rintro h m rfl
    simp at h
  · intro h
    rcases e : mnemonicOf op with _ | m
    · rfl
    · exact absurd (mnemonicOf_eq_some.mp e) (h m)

@[simp] theorem Instr.operands_length (i : Instr) : i.operands.length = i.mnemonic.arity := by
  cases i <;> rfl

@[simp] theorem encode_length (i : Instr) : (encode i).length = i.width := by
  simp [encode, Instr.width, Mnemonic.width, Nat.add_comm]

/-- An instruction is 1 to 4 words (R50). -/
theorem Instr.width_bounds (i : Instr) : 1 ≤ i.width ∧ i.width ≤ 4 := by
  unfold Instr.width; cases i.mnemonic <;> decide

theorem encode_ne_nil (i : Instr) : encode i ≠ [] := by simp [encode]

/-- The words of a known opcode with too few words after it do not decode. -/
theorem decode_short {m : Mnemonic} {ws : List Word} (h : ws.length < m.arity) :
    decode (m.opcode :: ws) = .truncated m.opcode := by
  cases m <;> simp [Mnemonic.arity, Mnemonic.kinds] at h <;> simp only [decode, mnemonicOf_opcode] <;>
    rcases ws with _ | ⟨a, _ | ⟨b, _ | ⟨c, ws⟩⟩⟩ <;> simp_all [take1, take2, take3] <;> omega

/-- The words of a known opcode with enough words after it decode to an instruction of that mnemonic,
whose words they are. -/
theorem decode_long {m : Mnemonic} {ws : List Word} (h : m.arity ≤ ws.length) :
    ∃ i rest, decode (m.opcode :: ws) = .instr i rest ∧ i.mnemonic = m ∧ ws = i.operands ++ rest := by
  cases m <;> simp [Mnemonic.arity, Mnemonic.kinds] at h <;> simp only [decode, mnemonicOf_opcode] <;>
    rcases ws with _ | ⟨a, _ | ⟨b, _ | ⟨c, ws⟩⟩⟩ <;>
    simp_all [take1, take2, take3, Instr.mnemonic, Instr.operands]

/-- What the decoder answers, for every list of words. -/
theorem decode_cases (ws : List Word) :
    (ws = [] ∧ decode ws = .noWord) ∨
    (∃ op tl, ws = op :: tl ∧ mnemonicOf op = none ∧ decode ws = .unknownOpcode op) ∨
    (∃ (m : Mnemonic) (tl : List Word), ws = m.opcode :: tl ∧ tl.length < m.arity ∧ decode ws = .truncated m.opcode) ∨
    (∃ i rest, ws = encode i ++ rest ∧ decode ws = .instr i rest) := by
  rcases ws with _ | ⟨op, tl⟩
  · exact .inl ⟨rfl, rfl⟩
  · rcases e : mnemonicOf op with _ | m
    · exact .inr (.inl ⟨op, tl, rfl, e, by simp [decode, e]⟩)
    · obtain rfl := mnemonicOf_eq_some.mp e
      rcases Nat.lt_or_ge tl.length m.arity with h | h
      · exact .inr (.inr (.inl ⟨m, tl, rfl, h, decode_short h⟩))
      · obtain ⟨i, rest, hd, rfl, rfl⟩ := decode_long h
        exact .inr (.inr (.inr ⟨i, rest, rfl, hd⟩))

/-- The words at an index inside the program: the word there, then those after it. -/
theorem drop_eq_cons {P : List Word} {a : Nat} (h : a < P.length) : P.drop a = P[a] :: P.drop (a + 1) :=
  List.drop_eq_getElem_cons h

end Sys2Proof
end

