-- ==== Sys2Proof/Laws/State.lean ====
section
/-! SUPPORT. Every update of the state, field by field: what it writes and what it leaves. -/

namespace Sys2Proof.Machine

variable (s : State)

@[simp] theorem State.setReg_regs (r : RegIx) (v : Word) : (s.setReg r v).regs = s.regs.set r v := rfl
@[simp] theorem State.setReg_pc (r : RegIx) (v : Word) : (s.setReg r v).pc = s.pc := rfl
@[simp] theorem State.setReg_stack (r : RegIx) (v : Word) : (s.setReg r v).stack = s.stack := rfl
@[simp] theorem State.setReg_halted (r : RegIx) (v : Word) : (s.setReg r v).halted = s.halted := rfl
@[simp] theorem State.setReg_cause (r : RegIx) (v : Word) : (s.setReg r v).cause = s.cause := rfl
@[simp] theorem State.setReg_out (r : RegIx) (v : Word) : (s.setReg r v).out = s.out := rfl
@[simp] theorem State.setReg_program (r : RegIx) (v : Word) : (s.setReg r v).program = s.program := rfl
@[simp] theorem State.setReg_events (r : RegIx) (v : Word) : (s.setReg r v).events = s.events := rfl
@[simp] theorem State.setReg_params (r : RegIx) (v : Word) : (s.setReg r v).params = s.params := rfl

@[simp] theorem State.setPc_regs (t : Word) : (s.setPc t).regs = s.regs := rfl
@[simp] theorem State.setPc_pc (t : Word) : (s.setPc t).pc = t := rfl
@[simp] theorem State.setPc_stack (t : Word) : (s.setPc t).stack = s.stack := rfl
@[simp] theorem State.setPc_halted (t : Word) : (s.setPc t).halted = s.halted := rfl
@[simp] theorem State.setPc_cause (t : Word) : (s.setPc t).cause = s.cause := rfl
@[simp] theorem State.setPc_out (t : Word) : (s.setPc t).out = s.out := rfl
@[simp] theorem State.setPc_program (t : Word) : (s.setPc t).program = s.program := rfl
@[simp] theorem State.setPc_events (t : Word) : (s.setPc t).events = s.events := rfl
@[simp] theorem State.setPc_params (t : Word) : (s.setPc t).params = s.params := rfl
@[simp] theorem State.getReg_setPc (t : Word) (q : RegIx) : (s.setPc t).getReg q = s.getReg q := rfl

@[simp] theorem State.advance_regs (n : Nat) : (s.advance n).regs = s.regs := rfl
@[simp] theorem State.advance_pc (n : Nat) : (s.advance n).pc = s.pc + BitVec.ofNat 32 n := rfl
@[simp] theorem State.advance_stack (n : Nat) : (s.advance n).stack = s.stack := rfl
@[simp] theorem State.advance_halted (n : Nat) : (s.advance n).halted = s.halted := rfl
@[simp] theorem State.advance_cause (n : Nat) : (s.advance n).cause = s.cause := rfl
@[simp] theorem State.advance_out (n : Nat) : (s.advance n).out = s.out := rfl
@[simp] theorem State.advance_program (n : Nat) : (s.advance n).program = s.program := rfl
@[simp] theorem State.advance_events (n : Nat) : (s.advance n).events = s.events := rfl
@[simp] theorem State.advance_params (n : Nat) : (s.advance n).params = s.params := rfl
@[simp] theorem State.getReg_advance (n : Nat) (q : RegIx) : (s.advance n).getReg q = s.getReg q := rfl

@[simp] theorem State.setStack_regs (st : List Word) : (s.setStack st).regs = s.regs := rfl
@[simp] theorem State.setStack_pc (st : List Word) : (s.setStack st).pc = s.pc := rfl
@[simp] theorem State.setStack_stack (st : List Word) : (s.setStack st).stack = st := rfl
@[simp] theorem State.setStack_halted (st : List Word) : (s.setStack st).halted = s.halted := rfl
@[simp] theorem State.setStack_cause (st : List Word) : (s.setStack st).cause = s.cause := rfl
@[simp] theorem State.setStack_out (st : List Word) : (s.setStack st).out = s.out := rfl
@[simp] theorem State.setStack_program (st : List Word) : (s.setStack st).program = s.program := rfl
@[simp] theorem State.setStack_events (st : List Word) : (s.setStack st).events = s.events := rfl
@[simp] theorem State.setStack_params (st : List Word) : (s.setStack st).params = s.params := rfl
@[simp] theorem State.getReg_setStack (st : List Word) (q : RegIx) : (s.setStack st).getReg q = s.getReg q := rfl

@[simp] theorem State.popped_regs : (s.popped).regs = s.regs := rfl
@[simp] theorem State.popped_pc : (s.popped).pc = s.pc := rfl
@[simp] theorem State.popped_stack : (s.popped).stack = s.stack.tail := rfl
@[simp] theorem State.popped_halted : (s.popped).halted = s.halted := rfl
@[simp] theorem State.popped_cause : (s.popped).cause = s.cause := rfl
@[simp] theorem State.popped_out : (s.popped).out = s.out := rfl
@[simp] theorem State.popped_program : (s.popped).program = s.program := rfl
@[simp] theorem State.popped_events : (s.popped).events = s.events := rfl
@[simp] theorem State.popped_params : (s.popped).params = s.params := rfl
@[simp] theorem State.getReg_popped (q : RegIx) : (s.popped).getReg q = s.getReg q := rfl

@[simp] theorem State.appendOut_regs (t : Text) : (s.appendOut t).regs = s.regs := rfl
@[simp] theorem State.appendOut_pc (t : Text) : (s.appendOut t).pc = s.pc := rfl
@[simp] theorem State.appendOut_stack (t : Text) : (s.appendOut t).stack = s.stack := rfl
@[simp] theorem State.appendOut_halted (t : Text) : (s.appendOut t).halted = s.halted := rfl
@[simp] theorem State.appendOut_cause (t : Text) : (s.appendOut t).cause = s.cause := rfl
@[simp] theorem State.appendOut_out (t : Text) : (s.appendOut t).out = s.out ++ t := rfl
@[simp] theorem State.appendOut_program (t : Text) : (s.appendOut t).program = s.program := rfl
@[simp] theorem State.appendOut_events (t : Text) : (s.appendOut t).events = s.events := rfl
@[simp] theorem State.appendOut_params (t : Text) : (s.appendOut t).params = s.params := rfl
@[simp] theorem State.getReg_appendOut (t : Text) (q : RegIx) : (s.appendOut t).getReg q = s.getReg q := rfl

@[simp] theorem State.emit_regs (e : Event) : (s.emit e).regs = s.regs := rfl
@[simp] theorem State.emit_pc (e : Event) : (s.emit e).pc = s.pc := rfl
@[simp] theorem State.emit_stack (e : Event) : (s.emit e).stack = s.stack := rfl
@[simp] theorem State.emit_halted (e : Event) : (s.emit e).halted = s.halted := rfl
@[simp] theorem State.emit_cause (e : Event) : (s.emit e).cause = s.cause := rfl
@[simp] theorem State.emit_out (e : Event) : (s.emit e).out = s.out := rfl
@[simp] theorem State.emit_program (e : Event) : (s.emit e).program = s.program := rfl
@[simp] theorem State.emit_events (e : Event) : (s.emit e).events = s.events ++ [e] := rfl
@[simp] theorem State.emit_params (e : Event) : (s.emit e).params = s.params := rfl
@[simp] theorem State.getReg_emit (e : Event) (q : RegIx) : (s.emit e).getReg q = s.getReg q := rfl

@[simp] theorem State.emitDiag_regs (d : Diag) : (s.emitDiag d).regs = s.regs := rfl
@[simp] theorem State.emitDiag_pc (d : Diag) : (s.emitDiag d).pc = s.pc := rfl
@[simp] theorem State.emitDiag_stack (d : Diag) : (s.emitDiag d).stack = s.stack := rfl
@[simp] theorem State.emitDiag_halted (d : Diag) : (s.emitDiag d).halted = s.halted := rfl
@[simp] theorem State.emitDiag_cause (d : Diag) : (s.emitDiag d).cause = s.cause := rfl
@[simp] theorem State.emitDiag_out (d : Diag) : (s.emitDiag d).out = s.out := rfl
@[simp] theorem State.emitDiag_program (d : Diag) : (s.emitDiag d).program = s.program := rfl
@[simp] theorem State.emitDiag_events (d : Diag) : (s.emitDiag d).events = s.events ++ [.diag d.level d] := rfl
@[simp] theorem State.emitDiag_params (d : Diag) : (s.emitDiag d).params = s.params := rfl
@[simp] theorem State.getReg_emitDiag (d : Diag) (q : RegIx) : (s.emitDiag d).getReg q = s.getReg q := rfl

@[simp] theorem State.enterHalted_regs (c : Cause) (d : Diag) : (s.enterHalted c d).regs = s.regs := rfl
@[simp] theorem State.enterHalted_pc (c : Cause) (d : Diag) : (s.enterHalted c d).pc = s.pc := rfl
@[simp] theorem State.enterHalted_stack (c : Cause) (d : Diag) : (s.enterHalted c d).stack = s.stack := rfl
@[simp] theorem State.enterHalted_halted (c : Cause) (d : Diag) : (s.enterHalted c d).halted = true := rfl
@[simp] theorem State.enterHalted_cause (c : Cause) (d : Diag) : (s.enterHalted c d).cause = if s.cause = .none then c else s.cause := rfl
@[simp] theorem State.enterHalted_out (c : Cause) (d : Diag) : (s.enterHalted c d).out = s.out := rfl
@[simp] theorem State.enterHalted_program (c : Cause) (d : Diag) : (s.enterHalted c d).program = s.program := rfl
@[simp] theorem State.enterHalted_events (c : Cause) (d : Diag) : (s.enterHalted c d).events = s.events ++ [.diag d.level d] := rfl
@[simp] theorem State.enterHalted_params (c : Cause) (d : Diag) : (s.enterHalted c d).params = s.params := rfl
@[simp] theorem State.getReg_enterHalted (c : Cause) (d : Diag) (q : RegIx) : (s.enterHalted c d).getReg q = s.getReg q := rfl

@[simp] theorem State.installProgram_regs (P : List Word) (t : Text) : (s.installProgram P t).regs = s.regs := rfl
@[simp] theorem State.installProgram_pc (P : List Word) (t : Text) : (s.installProgram P t).pc = 0 := rfl
@[simp] theorem State.installProgram_stack (P : List Word) (t : Text) : (s.installProgram P t).stack = [] := rfl
@[simp] theorem State.installProgram_halted (P : List Word) (t : Text) : (s.installProgram P t).halted = false := rfl
@[simp] theorem State.installProgram_cause (P : List Word) (t : Text) : (s.installProgram P t).cause = .none := rfl
@[simp] theorem State.installProgram_out (P : List Word) (t : Text) : (s.installProgram P t).out = t := rfl
@[simp] theorem State.installProgram_program (P : List Word) (t : Text) : (s.installProgram P t).program = some P := rfl
@[simp] theorem State.installProgram_events (P : List Word) (t : Text) : (s.installProgram P t).events = s.events := rfl
@[simp] theorem State.installProgram_params (P : List Word) (t : Text) : (s.installProgram P t).params = s.params := rfl
@[simp] theorem State.getReg_installProgram (P : List Word) (t : Text) (q : RegIx) : (s.installProgram P t).getReg q = s.getReg q := rfl

@[simp] theorem State.placeWords_regs (ws : List Word) : (s.placeWords ws).regs = s.regs := rfl
@[simp] theorem State.placeWords_pc (ws : List Word) : (s.placeWords ws).pc = s.pc := rfl
@[simp] theorem State.placeWords_stack (ws : List Word) : (s.placeWords ws).stack = s.stack := rfl
@[simp] theorem State.placeWords_halted (ws : List Word) : (s.placeWords ws).halted = false := rfl
@[simp] theorem State.placeWords_cause (ws : List Word) : (s.placeWords ws).cause = .none := rfl
@[simp] theorem State.placeWords_out (ws : List Word) : (s.placeWords ws).out = s.out := rfl
@[simp] theorem State.placeWords_program (ws : List Word) : (s.placeWords ws).program = some (writeWords (s.program.getD []) s.pc.toNat ws) := rfl
@[simp] theorem State.placeWords_events (ws : List Word) : (s.placeWords ws).events = s.events := rfl
@[simp] theorem State.placeWords_params (ws : List Word) : (s.placeWords ws).params = s.params := rfl
@[simp] theorem State.getReg_placeWords (ws : List Word) (q : RegIx) : (s.placeWords ws).getReg q = s.getReg q := rfl

@[simp] theorem State.getReg_setReg_self (r : RegIx) (v : Word) : (s.setReg r v).getReg r = v := by
  simp [State.getReg, State.setReg]

theorem State.getReg_setReg_of_ne {r q : RegIx} (v : Word) (h : q ≠ r) :
    (s.setReg r v).getReg q = s.getReg q := by
  simp only [State.getReg, State.setReg, Fin.getElem_fin]
  exact Vector.getElem_set_ne _ _ fun e => h (Fin.ext e.symm)

/-- Two writes to different registers commute. -/
theorem State.setReg_comm {r q : RegIx} (v w : Word) (h : q ≠ r) :
    (s.setReg r v).setReg q w = (s.setReg q w).setReg r v := by
  simp only [State.setReg]
  congr 1
  exact Vector.set_comm _ _ fun e => h (Fin.ext e.symm)

/-- The condition of a full stack looks at the stack and its depth only. -/
theorem stackFull_congr {s t : State} (hs : t.stack = s.stack) (hp : t.params = s.params) :
    stackFull t = stackFull s := by
  simp [stackFull, hs, hp]

end Sys2Proof.Machine
end

