-- ==== Sys2Proof/Laws/Ops.lean ====
section
/-! SUPPORT. For each shared operation, one lemma that says what it can do. -/

namespace Sys2Proof.Machine

/-! Register operands -/

theorem regIndex?_eq_some {w : Word} {r : RegIx} : regIndex? w = some r ↔ w.toInt = (r.val : Int) := by
  unfold regIndex?
  have hr := r.isLt
  split
  · simp only [Option.some.injEq, Fin.ext_iff]; omega
  · simp only [reduceCtorEq, false_iff]; omega

theorem regIndex?_eq_none {w : Word} : regIndex? w = none ↔ isRegWord w = false := by
  unfold regIndex? isRegWord
  split <;> rename_i h
  · simpa [h.1] using h.2
  · simpa using h

theorem isRegWord_iff {w : Word} : isRegWord w = true ↔ ∃ r, regIndex? w = some r := by
  rw [← Bool.not_eq_false, ← regIndex?_eq_none]
  exact Option.ne_none_iff_exists'

theorem isRegWord_of_some {w : Word} {r : RegIx} (h : regIndex? w = some r) : isRegWord w = true :=
  isRegWord_iff.mpr ⟨r, h⟩

/-- The state that a bad register operand leaves (R87). -/
theorem withReg_of_some {op w : Word} {pos : Nat} {s : State} {k : RegIx → Result} {r : RegIx}
    (h : regIndex? w = some r) : withReg op pos w s k = k r := by simp [withReg, h]

theorem withReg_of_none {op w : Word} {pos : Nat} {s : State} {k : RegIx → Result}
    (h : regIndex? w = none) : withReg op pos w s k =
      .next (s.enterHalted .operandIndexOutOfRange (.operandIndexOutOfRange s.pc op pos w)) := by
  simp [withReg, h]

/-! The stack -/

theorem pushThen_of_full {op v : Word} {s : State} {k : State → Result} (h : stackFull s = true) :
    pushThen op v s k = .next (s.enterHalted .stackOverflow (.stackOverflow s.pc op)) := by
  simp [pushThen, h]

theorem pushThen_of_room {op v : Word} {s : State} {k : State → Result} (h : stackFull s = false) :
    pushThen op v s k = k (s.setStack (v :: s.stack)) := by
  simp [pushThen, h]

theorem popValue_cons {s : State} {v : Word} {st : List Word} (h : s.stack = v :: st) :
    s.popValue = v := by simp [State.popValue, h]

theorem popValue_nil {s : State} (h : s.stack = []) : s.popValue = 0 := by simp [State.popValue, h]

/-- A stack with room stays within a finite depth when one word is pushed. -/
theorem room_depth {s : State} (h : stackFull s = false) {d : Nat} (hd : s.params.stackDepth = some d) :
    s.stack.length + 1 ≤ d := by
  simp [stackFull, hd] at h; omega

/-! Arithmetic -/

theorem writeExact_of_raises {op : Word} {d : RegIx} {v : Int} {s : State}
    (h : overflowRaises s.params v = true) :
    writeExact op d v s = .next (s.enterHalted .arithOverflow (.arithOverflow s.pc op)) := by
  simp [writeExact, h]

theorem writeExact_of_fits {op : Word} {d : RegIx} {v : Int} {s : State}
    (h : overflowRaises s.params v = false) :
    writeExact op d v s = .next ((s.setReg d (wrap32 v)).advance 3) := by
  simp [writeExact, h]

theorem overflowRaises_fault {p : Config.Params} {v : Int} (h : overflowRaises p v = true) :
    p.arithOverflow = .fault := by
  simp [overflowRaises] at h; exact h.1

/-! The program store keeps its form -/

/-- `init` installs a program of legal length only. -/
theorem initCommand_wf {P : List Word} {text0 : Text} {s t : State}
    (h : initCommand P text0 s = .next t) : Memory.wf P := by
  unfold initCommand at h
  split at h
  · cases h
  · exact Nat.le_of_not_lt ‹_›

/-- What `init` can do: refuse, or leave exactly this state. -/
theorem initCommand_next {P : List Word} {text0 : Text} {s t : State}
    (h : initCommand P text0 s = .next t) :
    Memory.wf P ∧ t = (s.installProgram P text0).emitDiag (.start P.length) := by
  refine ⟨initCommand_wf h, ?_⟩
  unfold initCommand at h
  split at h
  · cases h
  · injection h with h; exact h.symm

theorem writeWords_length (P : List Word) (a : Nat) (ws : List Word) :
    (writeWords P a ws).length = max P.length (a + ws.length) := by
  simp only [writeWords, List.length_append, List.length_take, List.length_replicate, List.length_drop]
  omega

/-- Words written inside the legal range keep the form. -/
theorem writeWords_wf {P : List Word} {a : Nat} {ws : List Word} (hP : Memory.wf P)
    (ha : a + ws.length ≤ Config.maxProgramLength) : Memory.wf (writeWords P a ws) := by
  simp only [Memory.wf] at *
  rw [writeWords_length]; omega

/-- The words written are the words fetched at the index. -/
theorem drop_writeWords (P : List Word) (a : Nat) (ws : List Word) :
    (writeWords P a ws).drop a = ws ++ P.drop (a + ws.length) := by
  have h : (P.take a ++ List.replicate (a - P.length) (0 : Word)).length = a := by
    simp only [List.length_append, List.length_take, List.length_replicate]; omega
  rw [writeWords, List.append_assoc]
  exact List.drop_left' h

/-- The reset state has no program installed, so its store has the form. -/
theorem reset_store_wf : ∀ P, State.reset.program = some P → Memory.wf P := by
  intro P h; cases h

end Sys2Proof.Machine
end

