-- ==== Sys2Proof/Laws/Exec.lean ====
section
/-! SUPPORT. What executing an instruction can do, said once: a bad register operand, a full stack, an
arithmetic overflow, or the instruction's own effect. -/

namespace Sys2Proof.Machine

/-- The instruction's own effect, from `s` to `t` (R100 to R151). -/
def Completed (s t : State) : Instr → Prop
  | .movr dst src => ∃ d r, regIndex? dst = some d ∧ regIndex? src = some r ∧
      t = (s.setReg d (s.getReg r)).advance 3
  | .movv dst lit => ∃ d, regIndex? dst = some d ∧ t = (s.setReg d lit).advance 3
  | .add dst src => ∃ d r, regIndex? dst = some d ∧ regIndex? src = some r ∧
      t = (s.setReg d (wrap32 ((s.getReg d).toInt + (s.getReg r).toInt))).advance 3
  | .sub dst src => ∃ d r, regIndex? dst = some d ∧ regIndex? src = some r ∧
      t = (s.setReg d (wrap32 ((s.getReg d).toInt - (s.getReg r).toInt))).advance 3
  | .push src => ∃ r, regIndex? src = some r ∧ stackFull s = false ∧
      t = (s.setStack (s.getReg r :: s.stack)).advance 2
  | .pop dst => ∃ d, regIndex? dst = some d ∧ t = (s.popped.setReg d s.popValue).advance 2
  | .jp addr => t = s.setPc (toPc addr)
  | .jl a b addr => ∃ ra rb, regIndex? a = some ra ∧ regIndex? b = some rb ∧
      t = if signedLess (s.getReg ra) (s.getReg rb) then s.setPc (toPc addr) else s.advance 4
  | .call addr => stackFull s = false ∧ t = (s.setStack ((s.pc + 2) :: s.stack)).setPc (toPc addr)
  | .ret => t = s.popped.setPc (toPc s.popValue)
  | .print src => ∃ r, regIndex? src = some r ∧
      t = ((s.appendOut (dec (s.getReg r) ++ s.params.printSep)).emit (.mirror (dec (s.getReg r)))).advance 2
  | .draw x y color => ∃ a b c, regIndex? x = some a ∧ regIndex? y = some b ∧ regIndex? color = some c ∧
      t = (s.emit (.setPixel (s.getReg a).toInt (s.getReg b).toInt ((s.getReg c).extractLsb' 0 8))).advance 4
  | .cls => t = (s.emit .clear).advance 1
  | .slp ms => t = (s.emit (.sleep ms.toInt)).advance 2
  | .halt => t = (s.enterHalted .haltInstr (.halt s.pc)).advance 1

/-- The instruction raises in stage S6 (R166). -/
def RaisesInS6 (s t : State) (i : Instr) : Prop :=
  (stackFull s = true ∧ t = s.enterHalted .stackOverflow (.stackOverflow s.pc i.opcode)) ∨
  (s.params.arithOverflow = .fault ∧ t = s.enterHalted .arithOverflow (.arithOverflow s.pc i.opcode))

/-- The three ways one instruction ends: a bad operand (S5), a raise (S6), its own effect. -/
def Ends (i : Instr) (s t : State) : Prop :=
  (∃ k w, i.firstBadOperand = some (k, w) ∧
    t = s.enterHalted .operandIndexOutOfRange (.operandIndexOutOfRange s.pc i.opcode k w)) ∨
  (i.WellFormed = true ∧ RaisesInS6 s t i) ∨
  (i.WellFormed = true ∧ Completed s t i)

theorem firstBadOperand_eq_none {i : Instr} : i.firstBadOperand = none ↔ i.WellFormed = true := by
  simp [Instr.firstBadOperand, Instr.WellFormed, List.find?_eq_none, List.all_eq_true]

theorem firstBadOperand_not_wf {i : Instr} {p : Nat × Word} (h : i.firstBadOperand = some p) :
    i.WellFormed = false := by
  rw [← Bool.not_eq_true, ← firstBadOperand_eq_none, h]; simp

/-- One register operand in front of the rest of a meaning: it is bad and named, or `k` runs. -/
theorem withReg_cases (op w : Word) (pos : Nat) (s : State) (k : RegIx → Result) :
    (isRegWord w = false ∧ withReg op pos w s k =
      .next (s.enterHalted .operandIndexOutOfRange (.operandIndexOutOfRange s.pc op pos w))) ∨
    (∃ r, isRegWord w = true ∧ regIndex? w = some r ∧ withReg op pos w s k = k r) := by
  rcases h : regIndex? w with _ | r
  · exact .inl ⟨regIndex?_eq_none.mp h, withReg_of_none h⟩
  · exact .inr ⟨r, isRegWord_of_some h, rfl, withReg_of_some h⟩

/-- `exec` always answers a next state, and it is one of the three. -/
theorem exec_ends (i : Instr) (s : State) : ∃ t, exec i s = .next t ∧ Ends i s t := by
  cases i with
  | movr dst src =>
    simp only [exec, execMovr]
    rcases withReg_cases Mnemonic.movr.opcode dst 1 s _ with ⟨h, e⟩ | ⟨d, h, hd, e⟩ <;> rw [e]
    · exact ⟨_, rfl, .inl ⟨1, dst, by simp [Instr.firstBadOperand, Instr.regOperands, h], rfl⟩⟩
    rcases withReg_cases Mnemonic.movr.opcode src 2 s _ with ⟨h', e⟩ | ⟨r, h', hr, e⟩ <;> rw [e]
    · exact ⟨_, rfl, .inl ⟨2, src, by simp [Instr.firstBadOperand, Instr.regOperands, h, h'], rfl⟩⟩
    exact ⟨_, rfl, .inr (.inr ⟨by simp [Instr.WellFormed, Instr.regOperands, h, h'], d, r, hd, hr, rfl⟩)⟩
  | movv dst lit =>
    simp only [exec, execMovv]
    rcases withReg_cases Mnemonic.movv.opcode dst 1 s _ with ⟨h, e⟩ | ⟨d, h, hd, e⟩ <;> rw [e]
    · exact ⟨_, rfl, .inl ⟨1, dst, by simp [Instr.firstBadOperand, Instr.regOperands, h], rfl⟩⟩
    exact ⟨_, rfl, .inr (.inr ⟨by simp [Instr.WellFormed, Instr.regOperands, h], d, hd, rfl⟩)⟩
  | add dst src =>
    simp only [exec, execAdd]
    rcases withReg_cases Mnemonic.add.opcode dst 1 s _ with ⟨h, e⟩ | ⟨d, h, hd, e⟩ <;> rw [e]
    · exact ⟨_, rfl, .inl ⟨1, dst, by simp [Instr.firstBadOperand, Instr.regOperands, h], rfl⟩⟩
    rcases withReg_cases Mnemonic.add.opcode src 2 s _ with ⟨h', e⟩ | ⟨r, h', hr, e⟩ <;> rw [e]
    · exact ⟨_, rfl, .inl ⟨2, src, by simp [Instr.firstBadOperand, Instr.regOperands, h, h'], rfl⟩⟩
    have wf : (Instr.add dst src).WellFormed = true := by
      simp [Instr.WellFormed, Instr.regOperands, h, h']
    rcases ho : overflowRaises s.params ((s.getReg d).toInt + (s.getReg r).toInt) with _ | _
    · exact ⟨_, writeExact_of_fits ho, .inr (.inr ⟨wf, d, r, hd, hr, rfl⟩)⟩
    · exact ⟨_, writeExact_of_raises ho, .inr (.inl ⟨wf, .inr ⟨overflowRaises_fault ho, rfl⟩⟩)⟩
  | sub dst src =>
    simp only [exec, execSub]
    rcases withReg_cases Mnemonic.sub.opcode dst 1 s _ with ⟨h, e⟩ | ⟨d, h, hd, e⟩ <;> rw [e]
    · exact ⟨_, rfl, .inl ⟨1, dst, by simp [Instr.firstBadOperand, Instr.regOperands, h], rfl⟩⟩
    rcases withReg_cases Mnemonic.sub.opcode src 2 s _ with ⟨h', e⟩ | ⟨r, h', hr, e⟩ <;> rw [e]
    · exact ⟨_, rfl, .inl ⟨2, src, by simp [Instr.firstBadOperand, Instr.regOperands, h, h'], rfl⟩⟩
    have wf : (Instr.sub dst src).WellFormed = true := by
      simp [Instr.WellFormed, Instr.regOperands, h, h']
    rcases ho : overflowRaises s.params ((s.getReg d).toInt - (s.getReg r).toInt) with _ | _
    · exact ⟨_, writeExact_of_fits ho, .inr (.inr ⟨wf, d, r, hd, hr, rfl⟩)⟩
    · exact ⟨_, writeExact_of_raises ho, .inr (.inl ⟨wf, .inr ⟨overflowRaises_fault ho, rfl⟩⟩)⟩
  | push src =>
    simp only [exec, execPush]
    rcases withReg_cases Mnemonic.push.opcode src 1 s _ with ⟨h, e⟩ | ⟨r, h, hr, e⟩ <;> rw [e]
    · exact ⟨_, rfl, .inl ⟨1, src, by simp [Instr.firstBadOperand, Instr.regOperands, h], rfl⟩⟩
    have wf : (Instr.push src).WellFormed = true := by simp [Instr.WellFormed, Instr.regOperands, h]
    rcases hf : stackFull s with _ | _
    · exact ⟨_, pushThen_of_room hf, .inr (.inr ⟨wf, r, hr, hf, rfl⟩)⟩
    · exact ⟨_, pushThen_of_full hf, .inr (.inl ⟨wf, .inl ⟨hf, rfl⟩⟩)⟩
  | pop dst =>
    simp only [exec, execPop]
    rcases withReg_cases Mnemonic.pop.opcode dst 1 s _ with ⟨h, e⟩ | ⟨d, h, hd, e⟩ <;> rw [e]
    · exact ⟨_, rfl, .inl ⟨1, dst, by simp [Instr.firstBadOperand, Instr.regOperands, h], rfl⟩⟩
    exact ⟨_, rfl, .inr (.inr ⟨by simp [Instr.WellFormed, Instr.regOperands, h], d, hd, rfl⟩)⟩
  | jp addr => exact ⟨_, rfl, .inr (.inr ⟨rfl, rfl⟩)⟩
  | jl a b addr =>
    simp only [exec, execJl]
    rcases withReg_cases Mnemonic.jl.opcode a 1 s _ with ⟨h, e⟩ | ⟨ra, h, ha, e⟩ <;> rw [e]
    · exact ⟨_, rfl, .inl ⟨1, a, by simp [Instr.firstBadOperand, Instr.regOperands, h], rfl⟩⟩
    rcases withReg_cases Mnemonic.jl.opcode b 2 s _ with ⟨h', e⟩ | ⟨rb, h', hb, e⟩ <;> rw [e]
    · exact ⟨_, rfl, .inl ⟨2, b, by simp [Instr.firstBadOperand, Instr.regOperands, h, h'], rfl⟩⟩
    refine ⟨if signedLess (s.getReg ra) (s.getReg rb) then s.setPc (toPc addr) else s.advance 4, ?_,
      .inr (.inr ⟨by simp [Instr.WellFormed, Instr.regOperands, h, h'], ra, rb, ha, hb, rfl⟩)⟩
    split <;> rfl
  | call addr =>
    simp only [exec, execCall]
    rcases hf : stackFull s with _ | _
    · exact ⟨_, pushThen_of_room hf, .inr (.inr ⟨rfl, hf, rfl⟩)⟩
    · exact ⟨_, pushThen_of_full hf, .inr (.inl ⟨rfl, .inl ⟨hf, rfl⟩⟩)⟩
  | ret => exact ⟨_, rfl, .inr (.inr ⟨rfl, rfl⟩)⟩
  | print src =>
    simp only [exec, execPrint]
    rcases withReg_cases Mnemonic.print.opcode src 1 s _ with ⟨h, e⟩ | ⟨r, h, hr, e⟩ <;> rw [e]
    · exact ⟨_, rfl, .inl ⟨1, src, by simp [Instr.firstBadOperand, Instr.regOperands, h], rfl⟩⟩
    exact ⟨_, rfl, .inr (.inr ⟨by simp [Instr.WellFormed, Instr.regOperands, h], r, hr, rfl⟩)⟩
  | draw x y color =>
    simp only [exec, execDraw]
    rcases withReg_cases Mnemonic.draw.opcode x 1 s _ with ⟨h, e⟩ | ⟨a, h, ha, e⟩ <;> rw [e]
    · exact ⟨_, rfl, .inl ⟨1, x, by simp [Instr.firstBadOperand, Instr.regOperands, h], rfl⟩⟩
    rcases withReg_cases Mnemonic.draw.opcode y 2 s _ with ⟨h', e⟩ | ⟨b, h', hb, e⟩ <;> rw [e]
    · exact ⟨_, rfl, .inl ⟨2, y, by simp [Instr.firstBadOperand, Instr.regOperands, h, h'], rfl⟩⟩
    rcases withReg_cases Mnemonic.draw.opcode color 3 s _ with ⟨h2, e⟩ | ⟨c, h2, hc, e⟩ <;> rw [e]
    · exact ⟨_, rfl, .inl ⟨3, color, by simp [Instr.firstBadOperand, Instr.regOperands, h, h', h2], rfl⟩⟩
    exact ⟨_, rfl, .inr (.inr ⟨by simp [Instr.WellFormed, Instr.regOperands, h, h', h2],
      a, b, c, ha, hb, hc, rfl⟩)⟩
  | cls => exact ⟨_, rfl, .inr (.inr ⟨rfl, rfl⟩)⟩
  | slp ms => exact ⟨_, rfl, .inr (.inr ⟨rfl, rfl⟩)⟩
  | halt => exact ⟨_, rfl, .inr (.inr ⟨rfl, rfl⟩)⟩

/-- What an `exec` that answers `t` did. -/
theorem exec_cases {i : Instr} {s t : State} (h : exec i s = .next t) : Ends i s t := by
  obtain ⟨t', e, he⟩ := exec_ends i s
  rw [e] at h; injection h with h; exact h ▸ he

/-- No instruction writes the program store or the parameters (R41). -/
theorem exec_frame {i : Instr} {s t : State} (h : exec i s = .next t) :
    t.program = s.program ∧ t.params = s.params := by
  rcases exec_cases h with ⟨k, w, -, rfl⟩ | ⟨-, ⟨-, rfl⟩ | ⟨-, rfl⟩⟩ | ⟨-, c⟩
  · exact ⟨rfl, rfl⟩
  · exact ⟨rfl, rfl⟩
  · exact ⟨rfl, rfl⟩
  · cases i <;> simp only [Completed] at c
    case movr => obtain ⟨d, r, -, -, rfl⟩ := c; exact ⟨rfl, rfl⟩
    case movv => obtain ⟨d, -, rfl⟩ := c; exact ⟨rfl, rfl⟩
    case add => obtain ⟨d, r, -, -, rfl⟩ := c; exact ⟨rfl, rfl⟩
    case sub => obtain ⟨d, r, -, -, rfl⟩ := c; exact ⟨rfl, rfl⟩
    case push => obtain ⟨r, -, -, rfl⟩ := c; exact ⟨rfl, rfl⟩
    case pop => obtain ⟨d, -, rfl⟩ := c; exact ⟨rfl, rfl⟩
    case jp => subst c; exact ⟨rfl, rfl⟩
    case jl => obtain ⟨a, b, -, -, rfl⟩ := c; split <;> exact ⟨rfl, rfl⟩
    case call => obtain ⟨-, rfl⟩ := c; exact ⟨rfl, rfl⟩
    case ret => subst c; exact ⟨rfl, rfl⟩
    case print => obtain ⟨r, -, rfl⟩ := c; exact ⟨rfl, rfl⟩
    case draw => obtain ⟨a, b, e, -, -, -, rfl⟩ := c; exact ⟨rfl, rfl⟩
    case cls => subst c; exact ⟨rfl, rfl⟩
    case slp => subst c; exact ⟨rfl, rfl⟩
    case halt => subst c; exact ⟨rfl, rfl⟩

/-- An instruction's own effect touches `halted` and `cause` only if it is HALT (R17, R18). -/
theorem completed_status {i : Instr} {s t : State} (c : Completed s t i) :
    (i = .halt ∧ t = (s.enterHalted .haltInstr (.halt s.pc)).advance 1) ∨
    (i ≠ .halt ∧ t.halted = s.halted ∧ t.cause = s.cause) := by
  cases i <;> simp only [Completed] at c
  case movr => obtain ⟨d, r, -, -, rfl⟩ := c; exact .inr ⟨nofun, rfl, rfl⟩
  case movv => obtain ⟨d, -, rfl⟩ := c; exact .inr ⟨nofun, rfl, rfl⟩
  case add => obtain ⟨d, r, -, -, rfl⟩ := c; exact .inr ⟨nofun, rfl, rfl⟩
  case sub => obtain ⟨d, r, -, -, rfl⟩ := c; exact .inr ⟨nofun, rfl, rfl⟩
  case push => obtain ⟨r, -, -, rfl⟩ := c; exact .inr ⟨nofun, rfl, rfl⟩
  case pop => obtain ⟨d, -, rfl⟩ := c; exact .inr ⟨nofun, rfl, rfl⟩
  case jp => subst c; exact .inr ⟨nofun, rfl, rfl⟩
  case jl => obtain ⟨a, b, -, -, rfl⟩ := c; split <;> exact .inr ⟨nofun, rfl, rfl⟩
  case call => obtain ⟨-, rfl⟩ := c; exact .inr ⟨nofun, rfl, rfl⟩
  case ret => subst c; exact .inr ⟨nofun, rfl, rfl⟩
  case print => obtain ⟨r, -, rfl⟩ := c; exact .inr ⟨nofun, rfl, rfl⟩
  case draw => obtain ⟨a, b, e, -, -, -, rfl⟩ := c; exact .inr ⟨nofun, rfl, rfl⟩
  case cls => subst c; exact .inr ⟨nofun, rfl, rfl⟩
  case slp => subst c; exact .inr ⟨nofun, rfl, rfl⟩
  case halt => subst c; exact .inl ⟨rfl, rfl⟩

/-- An instruction's own effect lengthens the stack only where there is room for one word (R15). -/
theorem completed_stack_length {i : Instr} {s t : State} (c : Completed s t i) :
    t.stack.length ≤ s.stack.length ∨
    (stackFull s = false ∧ t.stack.length = s.stack.length + 1) := by
  cases i <;> simp only [Completed] at c
  case movr => obtain ⟨d, r, -, -, rfl⟩ := c; exact .inl le_rfl
  case movv => obtain ⟨d, -, rfl⟩ := c; exact .inl le_rfl
  case add => obtain ⟨d, r, -, -, rfl⟩ := c; exact .inl le_rfl
  case sub => obtain ⟨d, r, -, -, rfl⟩ := c; exact .inl le_rfl
  case push => obtain ⟨r, -, hf, rfl⟩ := c; exact .inr ⟨hf, rfl⟩
  case pop => obtain ⟨d, -, rfl⟩ := c; exact .inl (by simp)
  case jp => subst c; exact .inl le_rfl
  case jl => obtain ⟨a, b, -, -, rfl⟩ := c; split <;> exact .inl le_rfl
  case call => obtain ⟨hf, rfl⟩ := c; exact .inr ⟨hf, rfl⟩
  case ret => subst c; exact .inl (by simp)
  case print => obtain ⟨r, -, rfl⟩ := c; exact .inl le_rfl
  case draw => obtain ⟨a, b, e, -, -, -, rfl⟩ := c; exact .inl le_rfl
  case cls => subst c; exact .inl le_rfl
  case slp => subst c; exact .inl le_rfl
  case halt => subst c; exact .inl le_rfl

end Sys2Proof.Machine
end

