-- ==== Sys2Proof/Laws/PerInstr.lean ====
section
/-! SUPPORT. Statements for every instruction, one lemma per constructor. -/

namespace Sys2Proof.Laws

namespace Layout

/-- The words of an instruction agree with the opcode map's row (R50, R51, R57): word 0 looks up its
mnemonic, the operands are as many as the arity, and the register operands stand at the positions the
row marks as registers. -/
def Statement (i : Instr) : Prop :=
  mnemonicOf i.opcode = some i.mnemonic ∧ (encode i).length = i.width ∧
  i.regOperands = ((i.mnemonic.kinds.zip i.operands).zipIdx 1).filterMap
    fun p => if p.1.1 = .reg then some (p.2, p.1.2) else none

theorem movr (dst src : Word) : Statement (.movr dst src) := ⟨mnemonicOf_opcode _, rfl, rfl⟩
theorem movv (dst lit : Word) : Statement (.movv dst lit) := ⟨mnemonicOf_opcode _, rfl, rfl⟩
theorem add (dst src : Word) : Statement (.add dst src) := ⟨mnemonicOf_opcode _, rfl, rfl⟩
theorem sub (dst src : Word) : Statement (.sub dst src) := ⟨mnemonicOf_opcode _, rfl, rfl⟩
theorem push (src : Word) : Statement (.push src) := ⟨mnemonicOf_opcode _, rfl, rfl⟩
theorem pop (dst : Word) : Statement (.pop dst) := ⟨mnemonicOf_opcode _, rfl, rfl⟩
theorem jp (addr : Word) : Statement (.jp addr) := ⟨mnemonicOf_opcode _, rfl, rfl⟩
theorem jl (a b addr : Word) : Statement (.jl a b addr) := ⟨mnemonicOf_opcode _, rfl, rfl⟩
theorem call (addr : Word) : Statement (.call addr) := ⟨mnemonicOf_opcode _, rfl, rfl⟩
theorem ret : Statement .ret := ⟨mnemonicOf_opcode _, rfl, rfl⟩
theorem print (src : Word) : Statement (.print src) := ⟨mnemonicOf_opcode _, rfl, rfl⟩
theorem draw (x y color : Word) : Statement (.draw x y color) := ⟨mnemonicOf_opcode _, rfl, rfl⟩
theorem cls : Statement .cls := ⟨mnemonicOf_opcode _, rfl, rfl⟩
theorem slp (ms : Word) : Statement (.slp ms) := ⟨mnemonicOf_opcode _, rfl, rfl⟩
theorem halt : Statement .halt := ⟨mnemonicOf_opcode _, rfl, rfl⟩

end Layout

end Sys2Proof.Laws
end

