-- ==== Sys2Proof/Laws/Step.lean ====
section
/-! SUPPORT. What one step can do, said once. -/

namespace Sys2Proof.Machine

/-- The bound check halts the machine, or it leaves the state alone. -/
theorem boundCheck_cases (L : Nat) (t : State) :
    (L ≤ t.pc.toNat ∧ t.halted = false ∧
      boundCheck L t = t.enterHalted .pcOutOfBounds (.pcOutOfBounds t.pc)) ∨
    ((t.pc.toNat < L ∨ t.halted = true) ∧ boundCheck L t = t) := by
  unfold boundCheck
  split
  · rename_i h; exact .inl ⟨h.1, h.2, rfl⟩
  · rename_i h
    refine .inr ⟨?_, rfl⟩
    rcases e : t.halted with _ | _
    · exact .inl (by simp [e] at h; exact h)
    · exact .inr rfl

/-- The bound check touches `halted`, `cause` and the events only. -/
@[simp] theorem boundCheck_regs (L : Nat) (t : State) : (boundCheck L t).regs = t.regs := by
  unfold boundCheck; split <;> rfl

@[simp] theorem boundCheck_pc (L : Nat) (t : State) : (boundCheck L t).pc = t.pc := by
  unfold boundCheck; split <;> rfl

@[simp] theorem boundCheck_stack (L : Nat) (t : State) : (boundCheck L t).stack = t.stack := by
  unfold boundCheck; split <;> rfl

@[simp] theorem boundCheck_out (L : Nat) (t : State) : (boundCheck L t).out = t.out := by
  unfold boundCheck; split <;> rfl

@[simp] theorem boundCheck_program (L : Nat) (t : State) : (boundCheck L t).program = t.program := by
  unfold boundCheck; split <;> rfl

@[simp] theorem boundCheck_params (L : Nat) (t : State) : (boundCheck L t).params = t.params := by
  unfold boundCheck; split <;> rfl

/-- The ways one step of a machine with program `P` ends (R82, R90). -/
inductive StepEnds (P : List Word) (s : State) : State → Prop where
  /-- S1 (R83). -/
  | whileHalted : s.halted = true → StepEnds P s (s.emitDiag (.steppedWhileHalted s.pc))
  /-- S2 (R84). -/
  | nothingToFetch : s.halted = false → P.length ≤ s.pc.toNat →
      StepEnds P s (s.enterHalted .pcOutOfBounds (.pcOutOfBounds s.pc))
  /-- S3 (R85). -/
  | unknownOpcode (op : Word) (rest : List Word) : s.halted = false → s.pc.toNat < P.length →
      P.drop s.pc.toNat = op :: rest → mnemonicOf op = none →
      StepEnds P s (s.enterHalted .unknownOpcode (.unknownOpcode op.toInt none s.pc))
  /-- S4 (R86). -/
  | truncated (m : Mnemonic) (rest : List Word) : s.halted = false → s.pc.toNat < P.length →
      P.drop s.pc.toNat = m.opcode :: rest → rest.length < m.arity →
      StepEnds P s (s.enterHalted .truncatedInstruction (.truncatedInstruction s.pc m.opcode))
  /-- S5 to S7 (R87 to R89). -/
  | ran (i : Instr) (rest : List Word) (t : State) : s.halted = false → s.pc.toNat < P.length →
      P.drop s.pc.toNat = encode i ++ rest → decodeAt P s.pc.toNat = .instr i rest →
      exec i s = .next t → StepEnds P s (boundCheck P.length t)

/-- With a program installed, a step always answers a next state, and it ends in one of those ways. -/
theorem step_ends {s : State} {P : List Word} (hP : s.program = some P) :
    ∃ t, step s = .next t ∧ StepEnds P s t := by
  simp only [step, sequencerStep, hP]
  rcases hh : s.halted with _ | _
  · by_cases hl : P.length ≤ s.pc.toNat
    · exact ⟨_, by simp [hl], .nothingToFetch hh hl⟩
    · have hlt := Nat.lt_of_not_le hl
      simp only [Bool.false_eq_true, if_false, hl, fetchAndRun, decodeAt]
      rcases decode_cases (P.drop s.pc.toNat) with ⟨e, -⟩ | ⟨op, tl, e, hn, hd⟩ | ⟨m, tl, e, hs, hd⟩ |
        ⟨i, rest, e, hd⟩
      · exact absurd (List.drop_eq_nil_iff.mp e) hl
      · rw [hd]; exact ⟨_, by simp [hn], .unknownOpcode op tl hh hlt e hn⟩
      · rw [hd]; exact ⟨_, rfl, .truncated m tl hh hlt e hs⟩
      · obtain ⟨t, ht, -⟩ := exec_ends i s
        rw [hd]
        exact ⟨boundCheck P.length t, by simp [runInstr, ht], .ran i rest t hh hlt e hd ht⟩
  · exact ⟨_, by simp, .whileHalted hh⟩

/-- What a step that answers `t` did. -/
theorem step_cases {s t : State} (h : step s = .next t) :
    ∃ P, s.program = some P ∧ StepEnds P s t := by
  rcases hP : s.program with _ | P
  · simp [step, sequencerStep, hP] at h
  · obtain ⟨t', e, he⟩ := step_ends hP
    rw [e] at h; injection h with h; exact ⟨P, rfl, h ▸ he⟩

end Sys2Proof.Machine
end

