-- ==== Sys2Proof/Laws/Text.lean ====
section
/-! SUPPORT. Decimal text and its reading back; splitting a line of plain tokens. -/

namespace Sys2Proof.Machine

theorem digitChar_toNat {n : Nat} (h : n < 10) : (digitChar n).toNat = 48 + n := by
  interval_cases n <;> decide

theorem isDigitChar_digitChar {n : Nat} (h : n < 10) : isDigitChar (digitChar n) = true := by
  simp [isDigitChar, digitChar_toNat h]; omega

theorem digitsValue_append (t : Text) (c : Char) :
    digitsValue (t ++ [c]) = 10 * digitsValue t + (c.toNat - 48) := by
  simp [digitsValue]

/-- What `decDigits` writes: decimal digits of the number, the first of them not 0 unless the number is. -/
theorem decDigits_spec (k n : Nat) (h : n < 10 ^ (k + 1)) :
    isDigits (decDigits (k + 1) n) = true ∧ digitsValue (decDigits (k + 1) n) = n ∧
    (1 ≤ n → (decDigits (k + 1) n).head? ≠ some '0') := by
  induction k generalizing n with
  | zero =>
    have hn : n < 10 := by simpa using h
    simp only [decDigits, hn, if_true]
    refine ⟨by simp [isDigits, isDigitChar_digitChar hn], by simp [digitsValue, digitChar_toNat hn], ?_⟩
    interval_cases n <;> decide
  | succ k ih =>
    rw [decDigits]
    split
    · rename_i hn
      refine ⟨by simp [isDigits, isDigitChar_digitChar hn], by simp [digitsValue, digitChar_toNat hn], ?_⟩
      interval_cases n <;> decide
    · rename_i hn
      have hm : n % 10 < 10 := Nat.mod_lt _ (by decide)
      obtain ⟨h1, h2, h3⟩ := ih (n / 10) (by rw [pow_succ] at h; omega)
      refine ⟨?_, ?_, fun _ => ?_⟩
      · simp only [isDigits, Bool.and_eq_true, List.all_append] at h1 ⊢
        refine ⟨by simp, h1.2, by simp [isDigitChar_digitChar hm]⟩
      · rw [digitsValue_append, h2, digitChar_toNat hm]; omega
      · rcases e : decDigits (k + 1) (n / 10) with _ | ⟨c, cs⟩
        · rw [e] at h1; simp [isDigits] at h1
        · have := h3 (by omega); rw [e] at this; simpa using this

/-- Every word's magnitude has at most ten digits. -/
theorem toInt_natAbs_lt (w : Word) : w.toInt.natAbs < 10 ^ (9 + 1) := by
  have h1 := BitVec.toInt_lt (x := w)
  have h2 := BitVec.le_toInt (x := w)
  norm_num at h1 h2 ⊢
  omega

/-- What `opcodeOf` answers: the opcode where the token is a mnemonic but for letter case (R69). -/
theorem opcodeOf_of_match {t : Text} {m : Mnemonic} (h : t.map upperChar = mnemonicText m) :
    opcodeOf t = m.opcode := by
  unfold opcodeOf
  rw [h]
  cases m <;> rfl

/-- And the sentinel where it is none. -/
theorem opcodeOf_of_miss {t : Text} (h : ∀ m, t.map upperChar ≠ mnemonicText m) :
    opcodeOf t = sentinel := by
  have e : (Mnemonic.all.find? fun m => mnemonicText m == t.map upperChar) = none :=
    List.find?_eq_none.mpr fun m _ => by simpa using (h m).symm
  simp [opcodeOf, e]

/-- Digits do not begin with `-`. -/
theorem isDigits_head {t : Text} (h : isDigits t = true) : t.head? ≠ some '-' := by
  rcases t with _ | ⟨c, cs⟩
  · simp
  · rintro h'
    simp at h'; subst h'
    simp [isDigits] at h
    exact absurd h.1 (by decide)

theorem literalValue?_digits {t : Text} (h : isDigits t = true) :
    literalValue? t = some (digitsValue t : Int) := by
  unfold literalValue?
  split
  · exact absurd rfl (isDigits_head h)
  · simp [h]

/-- The literal parser reads back the decimal text of every word (R71, R143). -/
theorem literalOf_dec (w : Word) : literalOf (dec w) = w := by
  obtain ⟨h1, h2, -⟩ := decDigits_spec 9 w.toInt.natAbs (toInt_natAbs_lt w)
  have hv : literalValue? (dec w) = some w.toInt := by
    unfold dec decInt
    split
    · simp only [literalValue?, h1, if_true, h2]
      congr 1; omega
    · rw [literalValue?_digits h1, h2]
      congr 1; omega
  have h1 := BitVec.toInt_lt (x := w)
  have h2 := BitVec.le_toInt (x := w)
  norm_num at h1 h2
  unfold literalOf
  rw [hv]
  simp only [Int.reduceNeg, Int.reducePow]
  rw [if_pos ⟨by omega, by omega⟩]
  exact BitVec.ofInt_toInt

/-- One trailing comma is stripped, no more (R70, decision D22). -/
@[simp] theorem stripComma_comma (t : Text) : stripComma (t ++ [',']) = t := by simp [stripComma]

/-- A text that does not end in a comma is left as it is. -/
theorem stripComma_of_ne {t : Text} (h : t.getLast? ≠ some ',') : stripComma t = t := by
  simp [stripComma, h]

/-- The pieces of a text that begins with a piece and a separator. -/
theorem splitAtChars_piece {p : Char → Bool} {t : Text} (ht : ∀ c ∈ t, p c = false) {c : Char}
    (hc : p c = true) (rest : Text) : splitAtChars p (t ++ c :: rest) = t :: splitAtChars p rest := by
  induction t with
  | nil => simp [splitAtChars, hc]
  | cons a t ih =>
    have ha := ht a (by simp)
    simp [splitAtChars, ha, ih fun c h => ht c (by simp [h])]

/-- A text without a separator is one piece. -/
theorem splitAtChars_whole {p : Char → Bool} {t : Text} (ht : ∀ c ∈ t, p c = false) :
    splitAtChars p t = [t] := by
  induction t with
  | nil => rfl
  | cons a t ih =>
    simp [splitAtChars, ht a (by simp), ih fun c h => ht c (by simp [h])]

/-- A line of tokens, one space before each but the first, splits into those tokens. -/
theorem splitAtChars_tokens {p : Char → Bool} (hs : p ' ' = true) (ts : List Text) (m : Text)
    (hm : ∀ c ∈ m, p c = false) (hts : ∀ t ∈ ts, ∀ c ∈ t, p c = false) :
    splitAtChars p (m ++ ts.flatMap fun t => ' ' :: t) = m :: ts := by
  induction ts generalizing m with
  | nil => simpa using splitAtChars_whole hm
  | cons t ts ih =>
    simp only [List.flatMap_cons, List.cons_append]
    rw [splitAtChars_piece hm hs, ih t (hts t (by simp)) fun u hu => hts u (by simp [hu])]

/-- A text without `/` holds no comment. -/
theorem stripComment_plain {t : Text} (h : ∀ c ∈ t, c ≠ '/') : stripComment t = t := by
  induction t with
  | nil => rfl
  | cons a t ih =>
    have e : stripComment (a :: t) = a :: stripComment t := by
      conv_lhs => unfold stripComment
      split
      · rename_i he; injection he with h1 _; exact absurd h1 (h a (by simp))
      · rename_i he; injection he with h1 h2; rw [h1, h2]
      · rename_i he; cases he
    rw [e, ih fun c hc => h c (by simp [hc])]

/-- A character of a mnemonic, a register name or a decimal literal: no separator, no comment, and not
changed by upper-casing. -/
def isPlainChar (c : Char) : Bool :=
  !isBlankChar c && c != '\n' && c != '/' && upperChar c == c

/-- The mnemonics are plain (R57). -/
theorem mnemonicText_plain (m : Mnemonic) :
    mnemonicText m ≠ [] ∧ ∀ c ∈ mnemonicText m, isPlainChar c = true := by
  refine ⟨by cases m <;> simp [mnemonicText], ?_⟩
  have h : (mnemonicText m).all isPlainChar = true := by cases m <;> rfl
  exact List.all_eq_true.mp h

/-- A line of plain tokens assembles to the words of its tokens. -/
theorem assemble_tokens (m : Text) (ts : List Text) (hm : m ≠ [] ∧ ∀ c ∈ m, isPlainChar c = true)
    (hts : ∀ t ∈ ts, t ≠ [] ∧ ∀ c ∈ t, isPlainChar c = true) :
    assemble (m ++ ts.flatMap fun t => ' ' :: t) = encodeTokens (m :: ts) := by
  have pl : ∀ c, isPlainChar c = true →
      isBlankChar c = false ∧ (c == '\n') = false ∧ c ≠ '/' ∧ upperChar c = c := by
    intro c h
    simp [isPlainChar] at h
    exact ⟨h.1.1.1, by simp [h.1.1.2], h.1.2, h.2⟩
  have all : ∀ c ∈ (m ++ ts.flatMap fun t => ' ' :: t), c = ' ' ∨ isPlainChar c = true := by
    intro c hc
    rcases List.mem_append.mp hc with h | h
    · exact .inr (hm.2 c h)
    · obtain ⟨t, ht, h⟩ := List.mem_flatMap.mp h
      rcases List.mem_cons.mp h with h | h
      · exact .inl h
      · exact .inr ((hts t ht).2 c h)
  have one : splitAtChars (fun c => c == '\n') (m ++ ts.flatMap fun t => ' ' :: t) =
      [m ++ ts.flatMap fun t => ' ' :: t] := by
    refine splitAtChars_whole fun c hc => ?_
    rcases all c hc with rfl | h
    · decide
    · exact (pl c h).2.1
  have strip : stripComment (m ++ ts.flatMap fun t => ' ' :: t) = m ++ ts.flatMap fun t => ' ' :: t := by
    refine stripComment_plain fun c hc => ?_
    rcases all c hc with rfl | h
    · decide
    · exact (pl c h).2.2.1
  have up : (m ++ ts.flatMap fun t => ' ' :: t).map upperChar = m ++ ts.flatMap fun t => ' ' :: t := by
    refine (List.map_congr_left fun c hc => ?_).trans (List.map_id _)
    rcases all c hc with rfl | h
    · decide
    · exact (pl c h).2.2.2
  have toks : tokenizeLine (m ++ ts.flatMap fun t => ' ' :: t) = m :: ts := by
    rw [tokenizeLine, strip, up, splitAtChars_tokens (by decide) ts m
      (fun c h => (pl c (hm.2 c h)).1) fun t ht c h => (pl c ((hts t ht).2 c h)).1]
    refine List.filter_eq_self.mpr fun t ht => ?_
    rcases List.mem_cons.mp ht with rfl | h
    · simpa using hm.1
    · simpa using (hts t h).1
  simp [assemble, tokenize, one, toks]

end Sys2Proof.Machine
end

