-- ==== Sys2Proof/Tests/Slice0.lean ====
section
/-! SUPPORT. The model's own tests: smoke tests of WellFormed, decoding of words written out from the
spec, single steps with results taken from 95_test_vectors.md or from the named rule, and a witness for
the hypotheses of every statement that has some. -/

namespace Sys2Proof.Tests

open Sys2Proof.Machine

/-- A RUNNING machine with program `P`, stack `st` (top first), `pc`, and R0, R1, R2 as given, the other
registers 7. -/
def run (P : List Word) (pc : Word) (x0 x1 x2 : Word) (st : List Word) : State :=
  { State.powerOn defaultParams (((Vector.replicate 10 7).set 0 x0).set 1 x1 |>.set 2 x2) with
    program := some P
    pc := pc
    stack := st }

/-- The same machine with both conservative parameters: overflow raises, and two stack entries fit. -/
def strict (s : State) : State :=
  { s with params := { s.params with arithOverflow := .fault, stackDepth := some 2 } }

def haltedFor (c : Cause) (s : State) : State := { s with halted := true, cause := c }

/-- The answer is a next state of which `p` holds. -/
def answers (r : Result) (p : State → Bool) : Bool :=
  match r with
  | .next t => p t
  | _ => false

/-! ### WellFormed: one ill-formed term for each register operand -/

theorem test_wf_accepts : (Instr.draw 0 9 5).WellFormed = true ∧ (Instr.movv 3 0xFFFFFFFF).WellFormed = true ∧
    (Instr.jp 0xFFFFFFFF).WellFormed = true := by decide
theorem test_wf_movr : (Instr.movr 10 0).WellFormed = false ∧ (Instr.movr 0 0xFFFFFFFF).WellFormed = false := by decide
theorem test_wf_movv : (Instr.movv 0xFFFFFFFF 5).WellFormed = false := by decide
theorem test_wf_add : (Instr.add 10 0).WellFormed = false ∧ (Instr.add 0 12).WellFormed = false := by decide
theorem test_wf_sub : (Instr.sub 10 0).WellFormed = false ∧ (Instr.sub 0 12).WellFormed = false := by decide
theorem test_wf_push : (Instr.push 10).WellFormed = false := by decide
theorem test_wf_pop : (Instr.pop 11).WellFormed = false := by decide
theorem test_wf_jl : (Instr.jl 10 0 0).WellFormed = false ∧ (Instr.jl 3 12 7).WellFormed = false := by decide
theorem test_wf_print : (Instr.print 0x80000000).WellFormed = false := by decide
theorem test_wf_draw : (Instr.draw 10 0 0).WellFormed = false ∧ (Instr.draw 0 10 0).WellFormed = false ∧
    (Instr.draw 0 1 10).WellFormed = false := by decide

/-! ### Decoding: the words of R57, written out -/

theorem test_decode_movr : decode [0x0000000A, 1, 0] = .instr (.movr 1 0) [] := by decide
theorem test_decode_movv : decode [0x0000000B, 3, 0xFFFFFFF4] = .instr (.movv 3 0xFFFFFFF4) [] := by decide
theorem test_decode_add : decode [0x00000014, 0, 1, 255] = .instr (.add 0 1) [255] := by decide
theorem test_decode_sub : decode [0x00000015, 2, 3] = .instr (.sub 2 3) [] := by decide
theorem test_decode_push : decode [0x0000001E, 1] = .instr (.push 1) [] := by decide
theorem test_decode_pop : decode [0x0000001F, 9] = .instr (.pop 9) [] := by decide
theorem test_decode_jp : decode [0x00000028, 12] = .instr (.jp 12) [] := by decide
theorem test_decode_jl : decode [0x00000029, 1, 2, 12] = .instr (.jl 1 2 12) [] := by decide
theorem test_decode_call : decode [0x0000002A, 8] = .instr (.call 8) [] := by decide
theorem test_decode_ret : decode [0x00000032, 5] = .instr .ret [5] := by decide
theorem test_decode_print : decode [0x0000003C, 0] = .instr (.print 0) [] := by decide
theorem test_decode_draw : decode [0x0000003D, 0, 1, 2] = .instr (.draw 0 1 2) [] := by decide
theorem test_decode_cls : decode [0x0000003E] = .instr .cls [] := by decide
theorem test_decode_slp : decode [0x00000046, 500] = .instr (.slp 500) [] := by decide
theorem test_decode_halt : decode [0x000000FF, 255] = .instr .halt [255] := by decide
/-- R53, R58; Y8 to Y10: 0, 511, 9999 and −1 are no opcodes. -/
theorem test_decode_unknown : decode [0] = .unknownOpcode 0 ∧ decode [511] = .unknownOpcode 511 ∧
    decode [9999] = .unknownOpcode 9999 ∧ decode [0xFFFFFFFF, 0, 1] = .unknownOpcode 0xFFFFFFFF := by decide
/-- M12: truncation is found whatever the words that exist are. -/
theorem test_decode_truncated : decode [10, 77] = .truncated 10 ∧ decode [61, 0, 0] = .truncated 61 := by decide
theorem test_table_word : decodeTableWord 32 10 = some (.movr 0 0) ∧ decodeTableWord 128 (41 + 2 ^ 32 + 2 * 2 ^ 64 + 12 * 2 ^ 96) =
    some (.jl 1 2 12) ∧ decodeTableWord 32 511 = none := by decide
/-- From reset, a word placed where the step fetches is what the step runs. -/
theorem test_fetch_word : answers (step (State.reset.withFetchWord 64 (42 + 3 * 2 ^ 32)))
    (fun t => t.stack == [2] && t.pc == 3 && !t.halted) = true := by decide

/-! ### Single steps (95_test_vectors.md) -/

/-- M1. -/
theorem test_movr : answers (step (run [0, 0, 0, 10, 1, 0, 255] 3 42 7 0 []))
    (fun t => t.getReg 1 == 42 && t.getReg 0 == 42 && t.pc == 6 && !t.halted) = true := by decide
/-- M9. -/
theorem test_movr_bad : answers (step (run [10, 0, 0xFFFFFFFF] 0 7 7 7 []))
    (fun t => t.cause == .operandIndexOutOfRange && t.pc == 0 && t.getReg 0 == 7) = true := by decide
/-- M5. -/
theorem test_movv : answers (step (run [11, 3, 0xFFFFFFFF, 255] 0 0 0 0 []))
    (fun t => t.getReg 3 == 0xFFFFFFFF && t.pc == 3) = true := by decide
/-- Y12: the last instruction completes and the bound check halts. -/
theorem test_movv_end : answers (step (run [11, 0, 255] 0 0 0 0 []))
    (fun t => t.getReg 0 == 255 && t.pc == 3 && t.halted && t.cause == .pcOutOfBounds) = true := by decide
/-- A4. -/
theorem test_add_wraps : answers (exec (.add 0 1) (run [] 0 0x7FFFFFFF 1 0 []))
    (fun t => t.getReg 0 == 0x80000000 && t.getReg 1 == 1 && t.pc == 3) = true := by decide
/-- A4 under `ARITH_OVERFLOW = fault`. -/
theorem test_add_raises : answers (exec (.add 0 1) (strict (run [] 0 0x7FFFFFFF 1 0 [])))
    (fun t => t.getReg 0 == 0x7FFFFFFF && t.pc == 0 && t.halted && t.cause == .arithOverflow) = true := by decide
/-- A8 in R0, R1. -/
theorem test_sub : answers (exec (.sub 0 1) (run [] 0 10 25 0 []))
    (fun t => t.getReg 0 == 0xFFFFFFF1 && t.getReg 1 == 25 && t.pc == 3) = true := by decide
/-- A11. -/
theorem test_sub_wraps : answers (exec (.sub 0 1) (run [] 0 0 0x80000000 0 []))
    (fun t => t.getReg 0 == 0x80000000) = true := by decide
/-- K1. -/
theorem test_push : answers (exec (.push 1) (run [] 8 0 7 0 [5])) (fun t => t.stack == [7, 5] && t.pc == 10) = true := by decide
/-- K6. -/
theorem test_push_full : answers (exec (.push 0) (strict (run [] 0 0 0 0 [2, 1])))
    (fun t => t.stack == [2, 1] && t.pc == 0 && t.cause == .stackOverflow) = true := by decide
/-- K2. -/
theorem test_pop : answers (exec (.pop 1) (run [] 16 0 21 0 [7, 5]))
    (fun t => t.getReg 1 == 7 && t.stack == [5] && t.pc == 18) = true := by decide
/-- K3. -/
theorem test_pop_empty : answers (exec (.pop 0) (run [] 0 99 0 0 []))
    (fun t => t.getReg 0 == 0 && t.stack == [] && t.pc == 2 && !t.halted) = true := by decide
/-- T4. -/
theorem test_jp_negative : answers (step (run [40, 0xFFFFFFFF] 0 0 0 0 []))
    (fun t => t.pc.toNat == 4294967295 && t.cause == .pcOutOfBounds) = true := by decide
/-- T2. -/
theorem test_jp_self : answers (step (run [40, 0] 0 0 0 0 [])) (fun t => t == run [40, 0] 0 0 0 0 []) = true := by decide
/-- T8 and T9 in R0, R1. -/
theorem test_jl_signed :
    answers (exec (.jl 0 1 12) (run [] 18 0xFFFFFFFF 0 0 [])) (fun t => t.pc == 12) = true ∧
    answers (exec (.jl 0 1 12) (run [] 18 0x7FFFFFFF 0x80000000 0 [])) (fun t => t.pc == 22) = true := by decide
/-- T12: a bad target that is not taken has no effect. -/
theorem test_jl_not_taken : answers (step (run [41, 0, 1, 999, 0, 0, 0, 0] 0 1 0 0 []))
    (fun t => t.pc == 4 && !t.halted) = true := by decide
/-- T15. -/
theorem test_call : answers (exec (.call 8) (run [] 3 0 0 0 [])) (fun t => t.stack == [5] && t.pc == 8) = true := by decide
/-- T16: the push is kept. -/
theorem test_call_out : answers (step (run [42, 5, 255] 0 0 0 0 []))
    (fun t => t.stack == [2] && t.pc == 5 && t.cause == .pcOutOfBounds) = true := by decide
/-- T17. -/
theorem test_ret : answers (exec .ret (run [] 18 0 0 0 [5])) (fun t => t.stack == [] && t.pc == 5) = true := by decide
/-- T18. -/
theorem test_ret_empty : answers (step (run [0, 0, 0, 0, 50, 0, 0, 0, 0] 4 0 0 0 []))
    (fun t => t.stack == [] && t.pc == 0 && !t.halted) = true := by decide
/-- O1. -/
theorem test_print : answers (exec (.print 0) (run [] 22 15 0 0 []))
    (fun t => t.out == ['1', '5'] && t.events == [.mirror ['1', '5']] && t.pc == 24) = true := by decide
/-- O4. -/
theorem test_print_lowest : dec 0x80000000 = ['-', '2', '1', '4', '7', '4', '8', '3', '6', '4', '8'] := by decide
/-- O7. -/
theorem test_draw : answers (exec (.draw 0 0 1) (run [] 8 3 0xFFFFFFFD 0 []))
    (fun t => t.events == [.setPixel 3 3 253] && t.pc == 12) = true := by decide
/-- O12 and O13. -/
theorem test_draw_raw : answers (exec (.draw 0 1 2) (run [] 0 0xFFFFFFFB 100000 0xFFFFFF00 []))
    (fun t => t.events == [.setPixel (-5) 100000 0]) = true := by decide
/-- O15. -/
theorem test_cls : answers (exec .cls (run [] 0 0 0 0 [])) (fun t => t.events == [.clear] && t.pc == 1) = true := by decide
/-- Y3. -/
theorem test_slp_negative : answers (step (run [70, 0xFFFFFFFB, 255] 0 0 0 0 []))
    (fun t => t.events == [.sleep (-5)] && t.pc == 2 && !t.halted) = true := by decide
/-- Y6: no `PcOutOfBounds` after a HALT in the last word. -/
theorem test_halt_last : answers (step (run [255] 0 0 0 0 []))
    (fun t => t.halted && t.cause == .haltInstr && t.pc == 1 && t.events == [.diag .info (.halt 0)]) = true := by decide
/-- Y5. -/
theorem test_halt_middle : answers (step (run [255, 255] 0 0 0 0 [])) (fun t => t.cause == .haltInstr && t.pc == 1) = true := by decide
/-- S7. -/
theorem test_unknown : answers (step (run [9999] 0 7 7 7 []))
    (fun t => t == { haltedFor .unknownOpcode (run [9999] 0 7 7 7 []) with
      events := [.diag .error (.unknownOpcode 9999 none 0)] }) = true := by decide
/-- Y11, and R83 after it. -/
theorem test_empty_program : answers (step (run [] 0 0 0 0 []))
    (fun t => t.cause == .pcOutOfBounds && answers (step t) (fun u => u.pc == 0 && u.events.length == 2)) = true := by decide
/-- Y14: `init` clears all but the registers. -/
theorem test_init : answers (initCommand [11, 0, 1, 255] [] (haltedFor .haltInstr (run [255] 1 3 4 5 [6])))
    (fun t => t.pc == 0 && t.stack == [] && !t.halted && t.cause == .none && t.getReg 2 == 5) = true := by decide
/-- R91, D26. -/
theorem test_run_halted : (runCommand 0 (haltedFor .haltInstr State.reset)).isSome = true := by decide
/-- AS3, AS6, AS7, AS9, AS12. -/
theorem test_assemble :
    assemble [' ', 'm', 'o', 'v', 'v', '\t', 'R', '3', ',', ' ', '-', '1', '2', ' ', '/', '/', 'x'] = [11, 3, 0xFFFFFFF4] ∧
    assemble ['M', 'O', 'V', ' ', 'R', '0', ',', ' ', 'R', '1', '0'] = [0xFFFFFFFF, 0, 0xFFFFFFFF] ∧
    assemble ['M', 'O', 'V', 'V', ' ', 'R', '0', ',', ' ', '5', ','] = [11, 0, 0xFFFFFFFF] ∧
    assemble ['H', 'A', 'L', 'T', ','] = [0xFFFFFFFF] := by decide

/-- R69: case-insensitive, and no comma is stripped. -/
theorem test_opcodeOf : opcodeOf ['m', 'o', 'v', 'r'] = 10 ∧ opcodeOf ['H', 'a', 'l', 'T'] = 255 ∧
    opcodeOf ['H', 'A', 'L', 'T', ','] = 0xFFFFFFFF := by decide
/-- R74: the line `JL R1, R2, 12` as the table writes it. -/
theorem test_sourceLine : sourceLine [true, true] (.jl 1 2 12) =
    ['J', 'L', ' ', 'R', '1', ',', ' ', 'R', '2', ',', ' ', '1', '2'] := by decide

/-! ### Witnesses: the hypotheses of each statement are met together -/

theorem witness_StepRunsTheDecodedInstruction :
    (run [50, 0] 0 0 0 0 [1]).program = some [50, 0] ∧ (run [50, 0] 0 0 0 0 [1]).halted = false ∧
    ([50, 0] : List Word).drop (run [50, 0] 0 0 0 0 [1]).pc.toNat = encode .ret ++ [0] := by decide
theorem witness_StepWhileHaltedOnlyReports :
    (haltedFor .haltInstr (run [255] 1 0 0 0 [])).program = some [255] ∧
    (haltedFor .haltInstr (run [255] 1 0 0 0 [])).halted = true := by decide
theorem witness_StepWithNothingToFetchHalts :
    (run [] 0 0 0 0 []).program = some [] ∧ (run [] 0 0 0 0 []).halted = false ∧
    (run [] 0 0 0 0 []).cause = .none ∧ 0 ≤ (run [] 0 0 0 0 []).pc.toNat := by decide
theorem witness_UnknownOpcodeHaltsInPlace :
    (run [256] 0 0 0 0 []).program = some [256] ∧ (run [256] 0 0 0 0 []).halted = false ∧
    (run [256] 0 0 0 0 []).cause = .none ∧ ([256] : List Word)[(run [256] 0 0 0 0 []).pc.toNat]? = some 256 ∧
    (256 : Word).toInt ∉ ([10, 11, 20, 21, 30, 31, 40, 41, 42, 50, 60, 61, 62, 70, 255] : List Int) := by decide
/-- For MOVR, MOVV (arity 2), POP and JP (arity 1), with the last operand word just outside. -/
theorem witness_TruncationStops :
    ∀ m ∈ ([.movr, .movv, .pop, .jp] : List Mnemonic), ∃ P : List Word,
      (run P 0 0 0 0 []).program = some P ∧ (run P 0 0 0 0 []).halted = false ∧
      (run P 0 0 0 0 []).cause = .none ∧ P[(run P 0 0 0 0 []).pc.toNat]? = some m.opcode ∧
      P.length = (run P 0 0 0 0 []).pc.toNat + m.arity := by
  intro m hm
  simp only [List.mem_cons, List.not_mem_nil, or_false] at hm
  rcases hm with rfl | rfl | rfl | rfl
  · exact ⟨[10, 0], by decide⟩
  · exact ⟨[11, 0], by decide⟩
  · exact ⟨[31], by decide⟩
  · exact ⟨[40], by decide⟩
/-- Word 10, the first that names no register, behind a good operand and in front of another. -/
theorem witness_BadOperandStops :
    (run [] 0 0 0 0 []).cause = .none ∧
    (Instr.draw 9 10 0).regOperands = [(1, 9)] ++ (2, 10) :: [(3, 0)] ∧
    (∀ p ∈ ([(1, 9)] : List (Nat × Word)), 0 ≤ p.2.toInt ∧ p.2.toInt < 10) ∧
    ¬ (0 ≤ (10 : Word).toInt ∧ (10 : Word).toInt < 10) := by decide
theorem witness_BadOperandStops_negative :
    (Instr.movr 0 0xFFFFFFFF).regOperands = [(1, 0)] ++ (2, 0xFFFFFFFF) :: [] ∧
    (Instr.movv 0xFFFFFFFF 5).regOperands = [] ++ (1, 0xFFFFFFFF) :: [] ∧
    (Instr.pop 0xFFFFFFFF).regOperands = [] ++ (1, 0xFFFFFFFF) :: [] ∧
    ¬ (0 ≤ (0xFFFFFFFF : Word).toInt ∧ (0xFFFFFFFF : Word).toInt < 10) := by decide
theorem witness_StepBeforeInitIsRefused : State.reset.program = none := by decide
theorem witness_EveryStepOfAProgramAnswers : (run [62] 0 0 0 0 []).program = some [62] := by decide
/-- The lowest and the highest register: MOVR, MOVV, ADD, SUB, PUSH, POP, JL, PRINT, DRAW. -/
theorem witness_register_operands :
    (0 : Word).toInt = ((0 : RegIx).val : Int) ∧ (9 : Word).toInt = ((9 : RegIx).val : Int) := by decide
/-- The wrapping clause (default), the fitting clause at both ends of the range, the raising clause just
past it, for ADD; the operands are R0 and R1. -/
theorem witness_AddWritesTheSum :
    (run [] 0 0x7FFFFFFF 1 0 []).params.arithOverflow = .wrap ∧
    (strict (run [] 0 0x7FFFFFFF 1 0 [])).params.arithOverflow = .fault ∧
    (let s := strict (run [] 0 0x7FFFFFFF 0 0 []); (s.getReg 0).toInt + (s.getReg 1).toInt = 2 ^ 31 - 1) ∧
    (let s := strict (run [] 0 0x80000001 0xFFFFFFFF 0 []); (s.getReg 0).toInt + (s.getReg 1).toInt = -2 ^ 31) ∧
    (let s := strict (run [] 0 0x7FFFFFFF 1 0 []); (s.getReg 0).toInt + (s.getReg 1).toInt = 2 ^ 31 ∧ s.cause = .none) := by
  decide
theorem witness_SubWritesTheDifference :
    (let s := strict (run [] 0 0 0x80000001 0 []); (s.getReg 0).toInt - (s.getReg 1).toInt = 2 ^ 31 - 1) ∧
    (let s := strict (run [] 0 0x80000000 0 0 []); (s.getReg 0).toInt - (s.getReg 1).toInt = -2 ^ 31) ∧
    (let s := strict (run [] 0 0 0x80000000 0 []); (s.getReg 0).toInt - (s.getReg 1).toInt = 2 ^ 31 ∧ s.cause = .none ∧
      s.params.arithOverflow = .fault) := by
  decide
/-- Room for exactly one entry, and none; for PUSH and CALL. -/
theorem witness_stack_room_and_full :
    (∀ d, (strict (run [] 0 0 0 0 [1])).params.stackDepth = some d → (strict (run [] 0 0 0 0 [1])).stack.length < d) ∧
    (strict (run [] 0 0 0 0 [2, 1])).params.stackDepth = some 2 ∧
    2 ≤ (strict (run [] 0 0 0 0 [2, 1])).stack.length ∧ (strict (run [] 0 0 0 0 [2, 1])).cause = .none := by
  refine ⟨fun d h => ?_, by decide⟩
  injection h with h; subst h; decide
theorem witness_PopTakesTheTopOrZero :
    (run [] 0 0 0 0 [7, 5]).stack = 7 :: [5] ∧ (run [] 0 0 0 0 []).stack = [] := by decide
/-- The first index outside the program, as a jump's target. -/
theorem witness_JpGoesToTheAddress :
    (run [40, 2] 0 0 0 0 []).program = some [40, 2] ∧ (run [40, 2] 0 0 0 0 []).halted = false ∧
    (run [40, 2] 0 0 0 0 []).cause = .none ∧
    ([40, 2] : List Word).drop (run [40, 2] 0 0 0 0 []).pc.toNat = 40 :: 2 :: [] ∧
    ([40, 2] : List Word).length ≤ (2 : Word).toNat := by decide
/-- Less by one, and equal. -/
theorem witness_JlBranchesOnSignedLess :
    (let s := run [] 0 0xFFFFFFFF 0 0 []; (s.getReg 0).toInt < (s.getReg 1).toInt) ∧
    (let s := run [] 0 5 5 0 []; (s.getReg 1).toInt ≤ (s.getReg 0).toInt) := by decide
theorem witness_RetPopsIntoThePc :
    (run [50] 0 0 0 0 [1]).stack = 1 :: [] ∧ (run [50] 0 0 0 0 []).stack = [] ∧
    (run [50] 0 0 0 0 [1]).program = some [50] ∧ (run [50] 0 0 0 0 [1]).halted = false ∧
    (run [50] 0 0 0 0 [1]).cause = .none ∧
    ([50] : List Word).drop (run [50] 0 0 0 0 [1]).pc.toNat = 50 :: [] ∧
    ([50] : List Word).length ≤ (1 : Word).toNat := by decide
theorem witness_HaltEntersHalted : (run [255] 0 0 0 0 []).cause = .none := by decide
theorem witness_DecoderOutcomes :
    (let P : List Word := [0]; 0 < P.length ∧ mnemonicOf 0 = none) ∧
    (let P : List Word := [40]; 0 < P.length ∧ mnemonicOf 40 = some .jp ∧ P.length ≤ 0 + Mnemonic.jp.arity) ∧
    (let P : List Word := [40, 0]; mnemonicOf 40 = some .jp ∧ 0 + Mnemonic.jp.arity < P.length) := by decide
/-- A step of R0 unchanged by a write of R1, and one of an instruction without a destination. -/
theorem witness_OnlyTheDestinationRegisterChanges :
    (∃ t, exec (.movv 1 5) (run [] 0 0 0 0 []) = .next t) ∧
    (∀ w, writtenWord (.movv 1 5) = some w → w.toInt ≠ ((0 : RegIx).val : Int)) ∧
    (∃ t, exec .cls (run [] 0 0 0 0 []) = .next t) ∧
    (∀ w, writtenWord .cls = some w → w.toInt ≠ ((0 : RegIx).val : Int)) := by
  refine ⟨⟨_, rfl⟩, ?_, ⟨_, rfl⟩, nofun⟩
  rintro w h; injection h with h; subst h; decide
/-- An instruction that pushes, one that pops, one that does neither. -/
theorem witness_OnlyTheTopOfTheStackChanges :
    (∃ t, exec (.push 0) (run [] 0 4 0 0 []) = .next t ∧ t.stack ≠ []) ∧
    (∃ t, exec .ret (run [] 0 0 0 0 [3]) = .next t ∧ t.stack ≠ [3]) ∧
    (∃ t, exec .cls (run [] 0 0 0 0 [3]) = .next t) := by
  exact ⟨⟨_, rfl, by decide⟩, ⟨_, rfl, by decide⟩, ⟨_, rfl⟩⟩
/-- A PRINT of the last register, at the end of its program. -/
theorem witness_OutputIsWrittenByInitAndPrintOnly_print :
    (9 : Word).toInt = ((9 : RegIx).val : Int) ∧ (run [60, 9] 0 0 0 0 []).program = some [60, 9] ∧
    (run [60, 9] 0 0 0 0 []).halted = false ∧
    ([60, 9] : List Word).drop (run [60, 9] 0 0 0 0 []).pc.toNat = encode (.print 9) ++ [] := by decide
/-- `init` from a HALTED machine, a step that is no PRINT, and one that is. -/
theorem witness_OutputIsWrittenByInitAndPrintOnly :
    (∃ t, initCommand [255] ['a'] (haltedFor .haltInstr (run [255] 1 0 0 0 [])) = .next t) ∧
    (∃ t, exec .cls (run [] 0 0 0 0 []) = .next t) ∧ (∀ w, Instr.cls ≠ .print w) ∧
    (∃ t, step (run [60, 0] 0 15 0 0 []) = .next t) := by
  exact ⟨⟨_, rfl⟩, ⟨_, rfl⟩, nofun, ⟨_, rfl⟩⟩
/-- For the statements about any step that answers: of a HALTED machine, and of a RUNNING one. -/
theorem witness_step_answers :
    (∃ t, step (haltedFor .haltInstr (run [255] 1 0 0 0 [])) = .next t) ∧
    (∃ t, step (run [50, 0] 0 0 0 0 [1]) = .next t) := ⟨⟨_, rfl⟩, ⟨_, rfl⟩⟩
theorem witness_UnnamedRegistersAreInvisible : (2 : RegIx) ∉ namedRegs (.add 0 1) := by decide
theorem witness_DefaultParametersRaiseNothing :
    (run [20, 0, 0] 0 0x7FFFFFFF 0 0 []).params.arithOverflow = .wrap ∧
    (run [20, 0, 0] 0 0x7FFFFFFF 0 0 []).params.stackDepth = none ∧
    (run [20, 0, 0] 0 0x7FFFFFFF 0 0 []).cause ≠ .arithOverflow ∧
    (run [20, 0, 0] 0 0x7FFFFFFF 0 0 []).cause ≠ .stackOverflow ∧
    (∃ t, step (run [20, 0, 0] 0 0x7FFFFFFF 0 0 []) = .next t) := ⟨by decide, by decide, by decide, by decide, _, rfl⟩
theorem witness_WrappedResultsIgnoreSignedness :
    (run [] 0 0x7FFFFFFF 1 0 []).params.arithOverflow = .wrap ∧
    (∃ t, exec (.add 0 1) (run [] 0 0x7FFFFFFF 1 0 []) = .next t) ∧
    (∃ u, exec (.sub 0 1) (run [] 0 0x7FFFFFFF 1 0 []) = .next u) := ⟨by decide, ⟨_, rfl⟩, ⟨_, rfl⟩⟩
/-- Each way of halting that the statement names, and a step that stays RUNNING. -/
theorem witness_HaltedIsTerminalUntilInit :
    (∃ t, step (run [255] 0 0 0 0 []) = .next t) ∧ ([255] : List Word)[0]? = some 255 ∧
    (∃ t, step (run [40, 2] 0 0 0 0 []) = .next t ∧ 2 ≤ t.pc.toNat) ∧
    (∃ t, step (run [0] 0 0 0 0 []) = .next t) ∧ mnemonicOf 0 = none ∧
    (∃ t, step (run [40] 0 0 0 0 []) = .next t) ∧ ([40] : List Word).length ≤ 0 + Mnemonic.jp.arity ∧
    (∃ t, step (run [30, 10] 0 0 0 0 []) = .next t) ∧ (Instr.push 10).WellFormed = false ∧
    (∃ t, step (strict (run [42, 0] 0 0 0 0 [2, 1])) = .next t ∧ t.cause = .stackOverflow) ∧
    (∃ t, step (run [40, 0] 0 0 0 0 []) = .next t ∧ t.halted = false) := by
  exact ⟨⟨_, rfl⟩, by decide, ⟨_, rfl, by decide⟩, ⟨_, rfl⟩, by decide, ⟨_, rfl⟩, by decide, ⟨_, rfl⟩, by decide,
    ⟨_, rfl, by decide⟩, ⟨_, rfl, by decide⟩⟩
theorem witness_FatalErrorsArePrecise :
    ∃ t, step (run [30, 10] 0 0 0 0 []) = .next t ∧ (run [30, 10] 0 0 0 0 []).halted = false ∧
      (run [30, 10] 0 0 0 0 []).cause = .none ∧ t.cause.isPrecise = true := ⟨_, rfl, by decide, by decide, by decide⟩
theorem witness_InitStartsARun : ([255] : List Word).length ≤ 2 ^ 31 - 1 := by decide
theorem witness_InitStartsARun_refused : ∃ P : List Word, 2 ^ 31 - 1 < P.length :=
  ⟨List.replicate (2 ^ 31) 0, by rw [List.length_replicate]; decide⟩
theorem witness_InitEstablishesTheInvariant :
    ∃ t, initCommand [255] [] (haltedFor .haltInstr (run [255] 1 0 0 0 [])) = .next t := ⟨_, rfl⟩
theorem witness_StepKeepsTheInvariant :
    Inv (run [40, 0] 0 0 0 0 []) ∧ ∃ t, step (run [40, 0] 0 0 0 0 []) = .next t := by
  refine ⟨⟨by decide, ?_, ?_, nofun⟩, _, rfl⟩
  · intro P h; injection h with h; subst h; decide
  · intro P h; injection h with h; subst h; exact .inl (by decide)
theorem witness_ReachableStatesAreSound : Reachable State.reset := .powerOn _ _
/-- A CALL at the very end of its program: `pc + 2 = L`. -/
theorem witness_NextIndexDoesNotWrap :
    ([0, 42, 0] : List Word).length ≤ 2 ^ 31 - 1 ∧
    ([0, 42, 0] : List Word).drop (1 : Word).toNat = encode (.call 0) ++ [] := by decide
/-- JP, a taken JL, a CALL with room for one more entry and a RET, with the lowest word and with −1. -/
theorem witness_NegativeTargetEndsTheRun_jp :
    (run [40, 0x80000000] 0 0 0 0 []).program = some [40, 0x80000000] ∧
    ([40, 0x80000000] : List Word).length ≤ 2 ^ 31 - 1 ∧ (run [40, 0x80000000] 0 0 0 0 []).halted = false ∧
    (run [40, 0x80000000] 0 0 0 0 []).cause = .none ∧ (0x80000000 : Word).toInt < 0 ∧
    ([40, 0x80000000] : List Word).drop (run [40, 0x80000000] 0 0 0 0 []).pc.toNat = 40 :: 0x80000000 :: [] := by
  decide
theorem witness_NegativeTargetEndsTheRun_jl :
    (run [41, 0, 1, 0xFFFFFFFF] 0 0xFFFFFFFF 0 0 []).program = some [41, 0, 1, 0xFFFFFFFF] ∧
    ([41, 0, 1, 0xFFFFFFFF] : List Word).drop (run [41, 0, 1, 0xFFFFFFFF] 0 0xFFFFFFFF 0 0 []).pc.toNat =
      41 :: 0 :: 1 :: 0xFFFFFFFF :: [] ∧ (0xFFFFFFFF : Word).toInt < 0 ∧
    (0 : Word).toInt = ((0 : RegIx).val : Int) ∧ (1 : Word).toInt = ((1 : RegIx).val : Int) ∧
    ((run [41, 0, 1, 0xFFFFFFFF] 0 0xFFFFFFFF 0 0 []).getReg 0).toInt <
      ((run [41, 0, 1, 0xFFFFFFFF] 0 0xFFFFFFFF 0 0 []).getReg 1).toInt := by decide
theorem witness_NegativeTargetEndsTheRun_call :
    (strict (run [42, 0xFFFFFFFF] 0 0 0 0 [9])).program = some [42, 0xFFFFFFFF] ∧
    ([42, 0xFFFFFFFF] : List Word).drop (strict (run [42, 0xFFFFFFFF] 0 0 0 0 [9])).pc.toNat =
      42 :: 0xFFFFFFFF :: [] ∧
    ∀ d, (strict (run [42, 0xFFFFFFFF] 0 0 0 0 [9])).params.stackDepth = some d →
      (strict (run [42, 0xFFFFFFFF] 0 0 0 0 [9])).stack.length < d :=
  ⟨by decide, by decide, fun d h => by injection h with h; subst h; decide⟩
theorem witness_NegativeTargetEndsTheRun_ret :
    (run [50] 0 0 0 0 [0x80000000, 3]).program = some [50] ∧
    ([50] : List Word).drop (run [50] 0 0 0 0 [0x80000000, 3]).pc.toNat = 50 :: [] ∧
    (run [50] 0 0 0 0 [0x80000000, 3]).stack = 0x80000000 :: [3] := by decide
theorem witness_RetReturnsPastItsCall :
    (run [] 3 0 0 0 []).params.stackDepth = none ∧
    ∃ t v, exec (.call 8) (run [] 3 0 0 0 []) = .next t ∧ exec .ret t = .next v := ⟨by decide, _, _, rfl, rfl⟩
theorem witness_RetTakesAPushedDataWord :
    (run [] 3 6 0 0 []).params.stackDepth = none ∧
    ∃ t u, exec (.push 0) (run [] 3 6 0 0 []) = .next t ∧ exec .ret t = .next u := ⟨by decide, _, _, rfl, rfl⟩
theorem witness_SourceLineAssemblesToItsWords : (Instr.draw 0 9 5).WellFormed = true := by decide
/-- A mnemonic in small letters, and two misses. -/
theorem witness_MnemonicsMatchWhateverTheirCase :
    (['j', 'L'] : Text).map upperChar = mnemonicText .jl ∧
    (∀ m, (['m', 'o', 'v'] : Text).map upperChar ≠ mnemonicText m) ∧
    ∀ m, ([] : Text).map upperChar ≠ mnemonicText m := by
  refine ⟨by decide, fun m => ?_, fun m => ?_⟩ <;> cases m <;> decide
/-- The bare register letter, a register past R9, and a literal with a comma. -/
theorem witness_RegisterTokensResolveExactly :
    (∀ d, d < 10 → ([] : Text) ≠ [digitChar d] ∧ ([] : Text) ≠ [digitChar d, ',']) ∧
    (∀ d, d < 10 → (['1', '0'] : Text) ≠ [digitChar d] ∧ (['1', '0'] : Text) ≠ [digitChar d, ',']) ∧
    (['5'] : Text).head? ≠ some 'R' := by decide
/-- Two lines, one blank and one of a comment alone. -/
theorem witness_BlankSourceAssemblesToNothing :
    ∀ line ∈ splitAtChars (fun c => c == '\n') [' ', '\n', '\t', '/', '/', 'x'],
      ∀ c ∈ stripComment line, c = ' ' ∨ c = '\t' := by
  simp [splitAtChars, stripComment]

end Sys2Proof.Tests
end

/-! PROOFS, 10_state.md. The output buffer (R21): who writes it, and that no instruction reads it. -/

namespace Sys2Proof.Machine

/-! Changes of the state that an instruction does not see -/

/-- A change `f` of the state that leaves alone all that the machine reads beside the registers, and that
may be made before or after every update beside a register write and `appendOut`. -/
structure Unseen (f : State → State) : Prop where
  pc : ∀ s, (f s).pc = s.pc
  stack : ∀ s, (f s).stack = s.stack
  params : ∀ s, (f s).params = s.params
  setPc : ∀ s t, (f s).setPc t = f (s.setPc t)
  setStack : ∀ s st, (f s).setStack st = f (s.setStack st)
  emit : ∀ s e, (f s).emit e = f (s.emit e)
  enterHalted : ∀ s c d, (f s).enterHalted c d = f (s.enterHalted c d)

namespace Unseen

variable {f : State → State} {s : State}

theorem advance (hf : Unseen f) (s : State) (n : Nat) : (f s).advance n = f (s.advance n) := by
  simp only [State.advance, hf.pc, hf.setPc]

theorem popValue (hf : Unseen f) (s : State) : (f s).popValue = s.popValue := by
  simp only [State.popValue, hf.stack]

theorem popped (hf : Unseen f) (s : State) : (f s).popped = f s.popped := by
  simp only [State.popped, hf.stack, hf.setStack]

theorem stackFull (hf : Unseen f) (s : State) : stackFull (f s) = stackFull s :=
  stackFull_congr (hf.stack s) (hf.params s)

/-- Stage S5 does not see the change if the rest of the meaning does not (R87). -/
theorem withReg (hf : Unseen f) {op w : Word} {pos : Nat} {k k' : RegIx → Result}
    (hk : ∀ r, regIndex? w = some r → k' r = mapNext f (k r)) :
    withReg op pos w (f s) k' = mapNext f (withReg op pos w s k) := by
  rcases h : regIndex? w with _ | r
  · rw [withReg_of_none h, withReg_of_none h, hf.pc, hf.enterHalted]; rfl
  · rw [withReg_of_some h, withReg_of_some h, hk r h]

/-- `push(v)` does not see the change if what follows it does not (R15). -/
theorem pushThen (hf : Unseen f) {op v : Word} {k k' : State → Result}
    (hk : ∀ t, k' (f t) = mapNext f (k t)) :
    pushThen op v (f s) k' = mapNext f (pushThen op v s k) := by
  rcases h : Machine.stackFull s with _ | _
  · rw [pushThen_of_room h, pushThen_of_room ((hf.stackFull s).trans h), hf.stack, hf.setStack, hk]
  · rw [pushThen_of_full h, pushThen_of_full ((hf.stackFull s).trans h), hf.pc, hf.enterHalted]; rfl

/-- Writing an exact result does not see the change if the register write does not (R112). -/
theorem writeExact (hf : Unseen f) {op : Word} {d : RegIx} {v : Int}
    (hw : ∀ t u, (f t).setReg d u = f (t.setReg d u)) :
    writeExact op d v (f s) = mapNext f (writeExact op d v s) := by
  rcases h : overflowRaises s.params v with _ | _
  · rw [writeExact_of_fits h, writeExact_of_fits ((congrArg (overflowRaises · v) (hf.params s)).trans h),
      hw, hf.advance]; rfl
  · rw [writeExact_of_raises h, writeExact_of_raises ((congrArg (overflowRaises · v) (hf.params s)).trans h),
      hf.pc, hf.enterHalted]; rfl

/-- An instruction does not see the change, whatever its outcome, if the registers it names do not and
appending to `out` does not. -/
theorem exec (hf : Unseen f) (hout : ∀ t u, (f t).appendOut u = f (t.appendOut u)) {i : Instr}
    (hread : ∀ r ∈ namedRegs i, (f s).getReg r = s.getReg r)
    (hwrite : ∀ r ∈ namedRegs i, ∀ t v, (f t).setReg r v = f (t.setReg r v)) :
    exec i (f s) = mapNext f (exec i s) := by
  have named {p : Nat × Word} {r : RegIx} (hp : p ∈ i.regOperands) (hr : regIndex? p.2 = some r) :
      r ∈ namedRegs i := List.mem_filterMap.mpr ⟨p, hp, hr⟩
  cases i with
  | movr dst src =>
    refine hf.withReg fun d hd => hf.withReg fun r hr => ?_
    rw [hread r (named (.tail _ (.head _)) hr), hwrite d (named (.head _) hd), hf.advance]; rfl
  | movv dst lit =>
    refine hf.withReg fun d hd => ?_
    rw [hwrite d (named (.head _) hd), hf.advance]; rfl
  | add dst src =>
    refine hf.withReg fun d hd => hf.withReg fun r hr => ?_
    rw [hread d (named (.head _) hd), hread r (named (.tail _ (.head _)) hr)]
    exact hf.writeExact (hwrite d (named (.head _) hd))
  | sub dst src =>
    refine hf.withReg fun d hd => hf.withReg fun r hr => ?_
    rw [hread d (named (.head _) hd), hread r (named (.tail _ (.head _)) hr)]
    exact hf.writeExact (hwrite d (named (.head _) hd))
  | push src =>
    refine hf.withReg fun r hr => ?_
    rw [hread r (named (.head _) hr)]
    exact hf.pushThen fun t => by rw [hf.advance]; rfl
  | pop dst =>
    refine hf.withReg fun d hd => ?_
    rw [hf.popped, hf.popValue, hwrite d (named (.head _) hd), hf.advance]; rfl
  | jp addr => exact congrArg Host.Outcome.next (hf.setPc s (toPc addr))
  | jl a b addr =>
    refine hf.withReg fun ra ha => hf.withReg fun rb hb => ?_
    rw [hread ra (named (.head _) ha), hread rb (named (.tail _ (.head _)) hb), hf.setPc, hf.advance]
    split <;> rfl
  | call addr =>
    simp only [Machine.exec, execCall, hf.pc]
    exact hf.pushThen fun t => by rw [hf.setPc]; rfl
  | ret =>
    simp only [Machine.exec, execRet, hf.popped, hf.popValue, hf.setPc, mapNext]
  | print src =>
    refine hf.withReg fun r hr => ?_
    rw [hread r (named (.head _) hr), hf.params, hout, hf.emit, hf.advance]; rfl
  | draw x y color =>
    refine hf.withReg fun a ha => hf.withReg fun b hb => hf.withReg fun c hc => ?_
    rw [hread a (named (.head _) ha), hread b (named (.tail _ (.head _)) hb),
      hread c (named (.tail _ (.tail _ (.head _))) hc), hf.emit, hf.advance]; rfl
  | cls => simp only [Machine.exec, execCls, hf.emit, hf.advance, mapNext]
  | slp ms => simp only [Machine.exec, execSlp, hf.emit, hf.advance, mapNext]
  | halt => simp only [Machine.exec, execHalt, hf.pc, hf.enterHalted, hf.advance, mapNext]

end Unseen

/-- The state with the text `o` in front of its output and the events `ev` in front of its trace. -/
def State.prependHistory (o : Text) (ev : List Event) (s : State) : State :=
  { s with out := o ++ s.out, events := ev ++ s.events }

/-- Text already output and events already sent are not seen (R21, R23). -/
theorem unseen_prependHistory (o : Text) (ev : List Event) : Unseen (State.prependHistory o ev) where
  pc _ := rfl
  stack _ := rfl
  params _ := rfl
  setPc _ _ := rfl
  setStack _ _ := rfl
  emit s e := by simp only [State.prependHistory, State.emit, List.append_assoc]
  enterHalted s c d := by simp only [State.prependHistory, State.enterHalted, List.append_assoc]; rfl

theorem appendOut_prependHistory (o : Text) (ev : List Event) (s : State) (u : Text) :
    (s.prependHistory o ev).appendOut u = (s.appendOut u).prependHistory o ev := by
  simp only [State.prependHistory, State.appendOut, List.append_assoc]

/-- No instruction reads the output buffer or the event trace (R21, R23). -/
theorem exec_prependHistory (o : Text) (ev : List Event) (i : Instr) (s : State) :
    exec i (s.prependHistory o ev) = mapNext (State.prependHistory o ev) (exec i s) :=
  (unseen_prependHistory o ev).exec (appendOut_prependHistory o ev) (fun _ _ => rfl) fun _ _ _ _ => rfl

/-! A step that runs an instruction -/

/-- The words of an instruction decode to it, whatever follows them. -/
@[simp] theorem decode_encode_append (i : Instr) (rest : List Word) :
    decode (encode i ++ rest) = .instr i rest := by
  cases i <;> rfl

/-- A RUNNING machine at the words of an instruction executes it, and stage S7 follows (R82, R89). -/
theorem step_of_encode {s t : State} {P rest : List Word} {i : Instr} (hP : s.program = some P)
    (hs : s.halted = false) (hd : P.drop s.pc.toNat = encode i ++ rest) (he : exec i s = .next t) :
    step s = .next (boundCheck P.length t) := by
  have hlt : ¬ P.length ≤ s.pc.toNat := fun h => by
    rw [List.drop_eq_nil_of_le h] at hd; simp [encode] at hd
  simp only [step, sequencerStep, hP, hs, Bool.false_eq_true, if_false, hlt, fetchAndRun, decodeAt, hd,
    decode_encode_append, runInstr, he]

/-! Who writes the output buffer -/

/-- PRINT of a register appends its text and the separator, and nothing else, to `out` (R140). -/
theorem exec_print_out (s : State) {w : Word} {r : RegIx} (hr : w.toInt = (r.val : Int)) :
    ∃ t, exec (.print w) s = .next t ∧ t.out = s.out ++ dec (s.getReg r) ++ s.params.printSep :=
  ⟨_, withReg_of_some (regIndex?_eq_some.mpr hr), (List.append_assoc _ _ _).symm⟩

/-- An instruction leaves `out`, unless it is a PRINT whose operand names a register (R21). -/
theorem exec_out {i : Instr} {s t : State} (h : exec i s = .next t) :
    t.out = s.out ∨ ∃ w r, i = .print w ∧ regIndex? w = some r := by
  rcases exec_cases h with ⟨k, w, -, rfl⟩ | ⟨-, ⟨-, rfl⟩ | ⟨-, rfl⟩⟩ | ⟨-, c⟩
  · exact .inl rfl
  · exact .inl rfl
  · exact .inl rfl
  · cases i <;> simp only [Completed] at c
    case print w => obtain ⟨r, hr, -⟩ := c; exact .inr ⟨w, r, rfl, hr⟩
    case movr => obtain ⟨d, r, -, -, rfl⟩ := c; exact .inl rfl
    case movv => obtain ⟨d, -, rfl⟩ := c; exact .inl rfl
    case add => obtain ⟨d, r, -, -, rfl⟩ := c; exact .inl rfl
    case sub => obtain ⟨d, r, -, -, rfl⟩ := c; exact .inl rfl
    case push => obtain ⟨r, -, -, rfl⟩ := c; exact .inl rfl
    case pop => obtain ⟨d, -, rfl⟩ := c; exact .inl rfl
    case jp => subst c; exact .inl rfl
    case jl => obtain ⟨a, b, -, -, rfl⟩ := c; split <;> exact .inl rfl
    case call => obtain ⟨-, rfl⟩ := c; exact .inl rfl
    case ret => subst c; exact .inl rfl
    case draw => obtain ⟨a, b, e, -, -, -, rfl⟩ := c; exact .inl rfl
    case cls => subst c; exact .inl rfl
    case slp => subst c; exact .inl rfl
    case halt => subst c; exact .inl rfl

/-- A step at a PRINT of a register appends what the PRINT does. -/
theorem step_print_out {s : State} {P rest : List Word} {w : Word} {r : RegIx} (hP : s.program = some P)
    (hs : s.halted = false) (hd : P.drop s.pc.toNat = encode (.print w) ++ rest)
    (hr : w.toInt = (r.val : Int)) :
    ∃ t, step s = .next t ∧ t.out = s.out ++ dec (s.getReg r) ++ s.params.printSep := by
  obtain ⟨t, he, ho⟩ := exec_print_out s hr
  exact ⟨boundCheck P.length t, step_of_encode hP hs hd he, (boundCheck_out _ t).trans ho⟩

/-- A step leaves `out`, or it is at a PRINT of a register and appends what the PRINT does (R21). -/
theorem step_out {s t : State} (h : step s = .next t) : t.out = s.out ∨
    ∃ (P rest : List Word) (w : Word) (r : RegIx), s.program = some P ∧ s.halted = false ∧
      P.drop s.pc.toNat = encode (.print w) ++ rest ∧ w.toInt = (r.val : Int) ∧
      t.out = s.out ++ dec (s.getReg r) ++ s.params.printSep := by
  obtain ⟨P, hP, hends⟩ := step_cases h
  cases hends with
  | whileHalted => exact .inl rfl
  | nothingToFetch => exact .inl rfl
  | unknownOpcode => exact .inl rfl
  | truncated => exact .inl rfl
  | ran i rest u hs hlt hd _ he =>
    rcases exec_out he with ho | ⟨w, r, rfl, hr⟩
    · exact .inl ((boundCheck_out _ u).trans ho)
    · have hr := regIndex?_eq_some.mp hr
      obtain ⟨v, hv, ho⟩ := step_print_out hP hs hd hr
      rw [h] at hv; cases hv
      exact .inr ⟨P, rest, w, r, hP, hs, hd, hr, ho⟩

/-- Settles O32: it holds. What writes `out` is read off the inversion lemmas of `init`, `exec` and `step`;
that no instruction reads it is `exec_prependHistory` with no events. -/
theorem outputIsWrittenByInitAndPrintOnly : Obligations.OutputIsWrittenByInitAndPrintOnly := by
  refine ⟨fun P text0 s t h => ?init, fun s w r hr => exec_print_out s hr,
    fun s P rest w r hP hs hd hr => step_print_out hP hs hd hr, fun i s t h hi => ?frame,
    fun s t h => step_out h, fun i s o => exec_prependHistory o [] i s⟩
  case init =>
    obtain ⟨-, rfl⟩ := initCommand_next h
    rfl
  case frame =>
    rcases exec_out h with ho | ⟨w, r, hw, -⟩
    · exact ho
    · exact absurd hw (hi w)

end Sys2Proof.Machine

/-! PROOFS, 30_encoding.md. The opcode words the decoder knows (R53). -/

namespace Sys2Proof

/-- A word is an unknown opcode exactly when the reverse lookup misses it, whatever words follow (R53). -/
theorem decode_cons_eq_unknownOpcode_iff {op : Word} {ws : List Word} :
    decode (op :: ws) = .unknownOpcode op ↔ mnemonicOf op = none := by
  rcases h : mnemonicOf op with _ | m
  · simp [decode, h]
  · obtain rfl := mnemonicOf_eq_some.mp h
    rcases Nat.lt_or_ge ws.length m.arity with hs | hl
    · simp [decode_short hs]
    · obtain ⟨i, rest, hd, -, -⟩ := decode_long hl
      simp [hd]

/-- The signed values of the opcodes, in the order of the table (R57). -/
theorem Mnemonic.all_map_opcode_toInt : Mnemonic.all.map (fun m => m.opcode.toInt) =
    [10, 11, 20, 21, 30, 31, 40, 41, 42, 50, 60, 61, 62, 70, 255] := by decide

/-- The reverse lookup misses a word exactly when its signed value is that of no opcode: signed values
tell all words apart, so nothing of the word is masked (R53). -/
theorem mnemonicOf_eq_none_iff_toInt {op : Word} :
    mnemonicOf op = none ↔ op.toInt ∉ Mnemonic.all.map fun m => m.opcode.toInt := by
  rw [mnemonicOf_eq_none]
  simp only [List.mem_map, Mnemonic.mem_all, true_and, not_exists, BitVec.toInt_inj, ne_comm (a := op), ne_eq]

/-- Settles O3: it holds. The decoder answers the unknown opcode where the reverse lookup misses, and the
lookup compares signed values. -/
theorem onlyFifteenOpcodeWordsAreKnown : Obligations.OnlyFifteenOpcodeWordsAreKnown := by
  intro op ws
  rw [decode_cons_eq_unknownOpcode_iff, mnemonicOf_eq_none_iff_toInt, Mnemonic.all_map_opcode_toInt]

end Sys2Proof

/-! PROOFS, 40_sequencer.md. The RUNNING and HALTED state machine (R92). -/

namespace Sys2Proof

/-- Only HALT has the opcode word 255 (R57). -/
theorem Instr.eq_halt_of_opcode {i : Instr} (h : i.opcode = 255) : i = .halt := by
  have hm : i.mnemonic = .halt := Mnemonic.opcode_injective h
  cases i
  case halt => rfl
  all_goals cases hm

/-- The word at the index of an instruction is its opcode. -/
theorem opcode_of_drop_eq_encode {P rest : List Word} {a : Nat} {i : Instr} {op : Word}
    (h : P.drop a = encode i ++ rest) (hop : P[a]? = some op) : i.opcode = op := by
  rw [← List.head?_drop, h] at hop
  exact Option.some.inj hop

/-- An instruction decoded at an index lies inside the program. -/
theorem width_le_of_drop_eq_encode {P rest : List Word} {a : Nat} {i : Instr}
    (h : P.drop a = encode i ++ rest) : a + i.width ≤ P.length := by
  have hlen := congrArg List.length h
  have hwidth := i.width_bounds
  rw [List.length_drop, List.length_append, encode_length] at hlen
  omega

end Sys2Proof

namespace Sys2Proof.Machine

/-- An instruction that leaves the machine RUNNING is well formed, is not HALT and records no cause. -/
theorem exec_running {i : Instr} {s t : State} (h : exec i s = .next t) (ht : t.halted = false) :
    i.WellFormed = true ∧ i ≠ .halt ∧ t.cause = s.cause := by
  rcases exec_cases h with ⟨k, w, -, rfl⟩ | ⟨-, ⟨-, rfl⟩ | ⟨-, rfl⟩⟩ | ⟨hwf, c⟩
  · cases ht
  · cases ht
  · cases ht
  · rcases completed_status c with ⟨-, rfl⟩ | ⟨hi, -, hcause⟩
    · cases ht
    · exact ⟨hwf, hi, hcause⟩

/-- The bound check leaves a machine RUNNING only inside the program, and then leaves it alone (R89). -/
theorem boundCheck_running {L : Nat} {t : State} (h : (boundCheck L t).halted = false) :
    t.pc.toNat < L ∧ boundCheck L t = t := by
  rcases boundCheck_cases L t with ⟨-, -, e⟩ | ⟨hpc | hhalted, e⟩ <;> rw [e] at h
  · cases h
  · exact ⟨hpc, e⟩
  · rw [hhalted] at h; cases h

/-- With program `P`, the step from `s` to `t` is the completed execution of the instruction `i` at `pc`,
and the machine runs on. -/
structure RunsOn (P : List Word) (s t : State) (i : Instr) (rest : List Word) : Prop where
  fetched : P.drop s.pc.toNat = encode i ++ rest
  wellFormed : i.WellFormed = true
  notHalt : i ≠ .halt
  executed : exec i s = .next t
  cause : t.cause = s.cause
  inside : t.pc.toNat < P.length

/-- A step that ends RUNNING is the completed execution of an instruction. -/
theorem step_running {s t : State} {P : List Word} (hP : s.program = some P) (h : step s = .next t)
    (ht : t.halted = false) : ∃ i rest, RunsOn P s t i rest := by
  obtain ⟨Q, hQ, hends⟩ := step_cases h
  obtain rfl : P = Q := Option.some.inj (hP.symm.trans hQ)
  cases hends with
  | whileHalted hs => exact absurd (hs.symm.trans ht) (by decide)
  | nothingToFetch => cases ht
  | unknownOpcode => cases ht
  | truncated => cases ht
  | ran i rest u _ _ hd _ he =>
    obtain ⟨hpc, e⟩ := boundCheck_running ht
    rw [e] at ht ⊢
    obtain ⟨hwf, hi, hcause⟩ := exec_running he ht
    exact ⟨i, rest, hd, hwf, hi, he, hcause, hpc⟩

/-- A step that is not the completed execution of an instruction ends HALTED. -/
theorem step_halts {s t : State} {P : List Word} (hP : s.program = some P) (h : step s = .next t)
    (hno : ∀ i rest, ¬ RunsOn P s t i rest) : t.halted = true :=
  Bool.of_not_eq_false fun ht =>
    have ⟨i, rest, r⟩ := step_running hP h ht
    hno i rest r

/-- No step leaves HALTED (R92). -/
theorem step_halted {s t : State} (h : step s = .next t) (hs : s.halted = true) : t.halted = true := by
  obtain ⟨P, -, hends⟩ := step_cases h
  cases hends with
  | whileHalted => exact hs
  | nothingToFetch => rfl
  | unknownOpcode => rfl
  | truncated => rfl
  | ran _ _ _ hrunning => exact absurd (hs.symm.trans hrunning) (by decide)

/-- Settles O39: it holds. A step that ends RUNNING is a completed instruction (`step_running`), and each
way into HALTED contradicts one thing that `RunsOn` says of that instruction. -/
theorem haltedIsTerminalUntilInit : Obligations.HaltedIsTerminalUntilInit := by
  refine ⟨fun P text0 s t h => ?init, fun s t => step_halted, fun s t P hP _ h => ?ways⟩
  case init =>
    obtain ⟨-, rfl⟩ := initCommand_next h
    rfl
  case ways =>
    have halts := step_halts hP h
    refine ⟨fun hop => halts fun i rest r => ?halt, fun hL => halts fun i rest r => ?bound,
      fun op hop hnone => halts fun i rest r => ?unknown, fun m hop hL => halts fun i rest r => ?truncated,
      fun j rest' hd hwf => halts fun i rest r => ?operand, fun hc hs => halts fun i rest r => ?overflow,
      fun ht => ?running⟩
    case halt =>
      exact r.notHalt (Instr.eq_halt_of_opcode (opcode_of_drop_eq_encode r.fetched hop))
    case bound => exact absurd r.inside (Nat.not_lt_of_le hL)
    case unknown =>
      obtain rfl : i.opcode = op := opcode_of_drop_eq_encode r.fetched hop
      exact mnemonicOf_eq_none.mp hnone i.mnemonic rfl
    case truncated =>
      obtain rfl : i.mnemonic = m := Mnemonic.opcode_injective (opcode_of_drop_eq_encode r.fetched hop)
      have hinside := width_le_of_drop_eq_encode r.fetched
      simp only [Instr.width, Mnemonic.width] at hinside
      omega
    case operand =>
      have hij := congrArg decode (r.fetched.symm.trans hd)
      rw [decode_encode_append, decode_encode_append] at hij
      obtain ⟨rfl, -⟩ := Decoded.instr.inj hij
      exact absurd (r.wellFormed.symm.trans hwf) (by decide)
    case overflow =>
      rw [r.cause, hs] at hc
      rcases hc with hc | hc <;> cases hc
    case running =>
      obtain ⟨i, rest, r⟩ := step_running hP h ht
      exact ⟨i, rest, r.fetched, r.wellFormed, r.executed⟩

end Sys2Proof.Machine

/-! PROOFS, 41_data_movement.md. MOVR and MOVV (R100, R101), and the two exceptions of every instruction:
truncation (R86) and a register operand out of range (R87). -/

namespace Sys2Proof.Machine

/-! The exceptions of every instruction -/

/-- Entry into HALTED records its cause where none is recorded yet (R18, R168). -/
theorem State.enterHalted_of_cause_none {s : State} (h : s.cause = .none) (c : Cause) (d : Diag) :
    s.enterHalted c d =
      { s with halted := true, cause := c, events := s.events ++ [.diag d.level d] } := by
  rw [State.enterHalted, if_pos h]

/-- A step of a RUNNING machine inside its program is the fetch (R82). -/
theorem step_of_inside {s : State} {P : List Word} (hP : s.program = some P) (hs : s.halted = false)
    (hlt : s.pc.toNat < P.length) : step s = fetchAndRun P s := by
  simp only [step, sequencerStep, hP, hs, Bool.false_eq_true, if_false, Nat.not_le_of_lt hlt]

/-- Stage S4 halts in place where the operands of the opcode at `pc` run past the program (R86). -/
theorem fetchAndRun_of_truncated {s : State} {P rest : List Word} {m : Mnemonic}
    (hd : P.drop s.pc.toNat = m.opcode :: rest) (hshort : rest.length < m.arity) :
    fetchAndRun P s =
      .next (s.enterHalted .truncatedInstruction (.truncatedInstruction s.pc m.opcode)) := by
  simp only [fetchAndRun, decodeAt, hd, decode_short hshort]

/-- Every truncated instruction halts the machine in place (R86). -/
theorem truncationStops (m : Mnemonic) : TruncationStops m := by
  intro s P hP hs hc hop hL
  obtain ⟨hlt, hword⟩ := List.getElem?_eq_some_iff.mp hop
  have hd : P.drop s.pc.toNat = m.opcode :: P.drop (s.pc.toNat + 1) := hword ▸ drop_eq_cons hlt
  have hshort : (P.drop (s.pc.toNat + 1)).length < m.arity := by rw [List.length_drop]; omega
  rw [step_of_inside hP hs hlt, fetchAndRun_of_truncated hd hshort, State.enterHalted_of_cause_none hc]
  rfl

/-- A word names a register exactly when its signed value is in 0 .. 9 (R54). -/
theorem isRegWord_iff_toInt {w : Word} : isRegWord w = true ↔ 0 ≤ w.toInt ∧ w.toInt < 10 := by
  simp [isRegWord]

/-- The first bad operand is the one with only good ones before it (R87). -/
theorem firstBadOperand_eq_some_of_split {i : Instr} {before after : List (Nat × Word)} {p : Nat × Word}
    (hi : i.regOperands = before ++ p :: after) (hgood : ∀ q ∈ before, isRegWord q.2 = true)
    (hbad : isRegWord p.2 = false) : i.firstBadOperand = some p :=
  List.find?_eq_some_iff_append.mpr
    ⟨by simp [hbad], before, after, hi, fun q hq => by simp [hgood q hq]⟩

/-- With a bad operand, `exec` ends in stage S5, whatever the instruction (R87). -/
theorem exec_of_firstBadOperand {i : Instr} {k : Nat} {w : Word} (h : i.firstBadOperand = some (k, w))
    (s : State) : exec i s =
      .next (s.enterHalted .operandIndexOutOfRange (.operandIndexOutOfRange s.pc i.opcode k w)) := by
  have hwf : i.WellFormed ≠ true := ne_true_of_eq_false (firstBadOperand_not_wf h)
  obtain ⟨t, he, ⟨k', w', h', rfl⟩ | ⟨hwf', -⟩ | ⟨hwf', -⟩⟩ := exec_ends i s
  · cases h.symm.trans h'; exact he
  · exact absurd hwf' hwf
  · exact absurd hwf' hwf

/-- Every instruction's first register operand out of range halts the machine in place (R87). -/
theorem badOperandStops (i : Instr) : BadOperandStops i := by
  intro s before after k w hc hi hgood hbad
  have hfirst : i.firstBadOperand = some (k, w) :=
    firstBadOperand_eq_some_of_split hi (fun q hq => isRegWord_iff_toInt.mpr (hgood q hq))
      (Bool.eq_false_iff.mpr (mt isRegWord_iff_toInt.mp hbad))
  rw [exec_of_firstBadOperand hfirst, State.enterHalted_of_cause_none hc]
  rfl

/-! The effects of MOVR and MOVV -/

/-- MOVR of two registers writes the one's value to the other and goes on to the next instruction (R100). -/
theorem exec_movr {w1 w2 : Word} {d r : RegIx} (hd : regIndex? w1 = some d) (hr : regIndex? w2 = some r)
    (s : State) : exec (.movr w1 w2) s = .next ((s.setReg d (s.getReg r)).advance 3) := by
  simp only [exec, execMovr, withReg_of_some hd, withReg_of_some hr]

/-- MOVV to a register writes the literal and goes on to the next instruction (R101). -/
theorem exec_movv {w1 : Word} {d : RegIx} (hd : regIndex? w1 = some d) (lit : Word) (s : State) :
    exec (.movv w1 lit) s = .next ((s.setReg d lit).advance 3) := by
  simp only [exec, execMovv, withReg_of_some hd]

/-- Settles O15: it holds. The two exceptions are those of every instruction; the effect is `exec_movr`. -/
theorem movrCopiesARegister : Obligations.MovrCopiesARegister := by
  refine ⟨fun _ _ => rfl, truncationStops .movr, fun w1 w2 => badOperandStops (.movr w1 w2),
    fun s w1 w2 d r hd hr => ?effect⟩
  case effect => exact exec_movr (regIndex?_eq_some.mpr hd) (regIndex?_eq_some.mpr hr) s

/-- Settles O16: it holds. The two exceptions are those of every instruction; the effect is `exec_movv`. -/
theorem movvLoadsTheLiteral : Obligations.MovvLoadsTheLiteral := by
  refine ⟨fun _ _ => rfl, truncationStops .movv, fun w1 lit => badOperandStops (.movv w1 lit),
    fun s w1 lit d hd => ?effect⟩
  case effect => exact exec_movv (regIndex?_eq_some.mpr hd) lit s

end Sys2Proof.Machine

/-! PROOFS, 43_stack.md. POP (R121), and the state that `pop()` leaves (R16). -/

namespace Sys2Proof.Machine

/-- A pop removes the top entry (R16). -/
theorem popped_cons {s : State} {v : Word} {st : List Word} (h : s.stack = v :: st) :
    s.popped = s.setStack st := by
  rw [State.popped, h, List.tail_cons]

/-- A pop from an empty stack changes nothing (R16). -/
theorem popped_nil {s : State} (h : s.stack = []) : s.popped = s := by
  rw [State.popped, h, List.tail_nil, ← h]
  rfl

/-- POP to a register writes the popped value and goes on to the next instruction (R121). -/
theorem exec_pop {w1 : Word} {d : RegIx} (hd : regIndex? w1 = some d) (s : State) :
    exec (.pop w1) s = .next ((s.popped.setReg d s.popValue).advance 2) := by
  simp only [exec, execPop, withReg_of_some hd]

/-- Settles O20: it holds. The two exceptions are those of every instruction; the effect is `exec_pop`,
read on a stack with a top entry and on an empty one. -/
theorem popTakesTheTopOrZero : Obligations.PopTakesTheTopOrZero := by
  refine ⟨fun _ => rfl, truncationStops .pop, fun w1 => badOperandStops (.pop w1),
    fun s w1 d hd => ⟨fun v st hst => ?top, fun hempty => ?empty⟩⟩
  case top =>
    rw [exec_pop (regIndex?_eq_some.mpr hd), popped_cons hst, popValue_cons hst]
    rfl
  case empty =>
    rw [exec_pop (regIndex?_eq_some.mpr hd), popped_nil hempty, popValue_nil hempty]
    rfl

end Sys2Proof.Machine

/-! PROOFS, 44_control_transfer.md. JP and RET (R130, R133), and the end of the run at a `pc` outside the
program (R89). -/

namespace Sys2Proof.Machine

/-! The end of the run outside the program -/

/-- Stage S7 halts a RUNNING machine whose `pc` is outside the program, and leaves `pc` there (R89). -/
theorem boundCheck_of_outside {L : Nat} {t : State} (hpc : L ≤ t.pc.toNat) (ht : t.halted = false) :
    boundCheck L t = t.enterHalted .pcOutOfBounds (.pcOutOfBounds t.pc) :=
  if_pos ⟨hpc, ht⟩

/-- An instruction that leaves a machine RUNNING with `pc` outside the program ends the run (R89, R134). -/
theorem step_of_leaving {s t : State} {P rest : List Word} {i : Instr} (hP : s.program = some P)
    (hs : s.halted = false) (hd : P.drop s.pc.toNat = encode i ++ rest) (he : exec i s = .next t)
    (ht : t.halted = false) (hc : t.cause = .none) (hpc : P.length ≤ t.pc.toNat) :
    step s = .next { t with
      halted := true
      cause := .pcOutOfBounds
      events := t.events ++ [.diag .warning (.pcOutOfBounds t.pc)] } := by
  rw [step_of_encode hP hs hd he, boundCheck_of_outside hpc ht, State.enterHalted_of_cause_none hc]
  rfl

/-! The effects of JP and RET -/

/-- JP goes to its address, unchecked (R130). -/
theorem exec_jp (addr : Word) (s : State) : exec (.jp addr) s = .next (s.setPc addr) := rfl

/-- RET on a stack with a top entry removes it and goes to it, unchecked (R133). -/
theorem exec_ret_cons {s : State} {v : Word} {st : List Word} (h : s.stack = v :: st) :
    exec .ret s = .next ((s.setStack st).setPc v) := by
  simp only [exec, execRet, toPc, popped_cons h, popValue_cons h]

/-- RET on an empty stack goes to index 0 and changes nothing else (R133). -/
theorem exec_ret_nil {s : State} (h : s.stack = []) : exec .ret s = .next (s.setPc 0) := by
  simp only [exec, execRet, toPc, popped_nil h, popValue_nil h]

/-- Settles O21: it holds. The exception is that of every instruction, the effect is `exec_jp`, and a target
outside the program leaves a RUNNING machine there. -/
theorem jpGoesToTheAddress : Obligations.JpGoesToTheAddress := by
  refine ⟨fun _ => rfl, truncationStops .jp, fun s addr => exec_jp addr s,
    fun s P rest addr hP hs hc hd hL => ?outside⟩
  case outside => exact step_of_leaving hP hs hd (exec_jp addr s) hs hc hL

/-- Settles O24: it holds. The effect is `exec_ret_cons` or `exec_ret_nil`, and a popped word outside the
program leaves a RUNNING machine there. -/
theorem retPopsIntoThePc : Obligations.RetPopsIntoThePc := by
  refine ⟨rfl, fun s v st hst => exec_ret_cons hst, fun s hempty => exec_ret_nil hempty,
    fun s P rest v st hP hs hc hd hst hL => ?outside⟩
  case outside => exact step_of_leaving hP hs hd (exec_ret_cons hst) hs hc hL

end Sys2Proof.Machine

/-! PROOFS, 45_io.md. CLS (R142). -/

namespace Sys2Proof.Machine

/-- CLS tells the display to clear and goes on to the next word (R142). -/
theorem exec_cls (s : State) : exec .cls s = .next ((s.emit .clear).advance 1) := rfl

/-- Settles O27: it holds. The word is that of the opcode map, with no operands; the effect is `exec_cls`,
whose two operations write only the trace and `pc`. -/
theorem clsEmitsClear : Obligations.ClsEmitsClear := by
  refine ⟨?word, fun s => ?effect⟩
  case word => rfl
  case effect => exact exec_cls s

end Sys2Proof.Machine

/-! PROOFS, 30_encoding.md. Decoding inverts encoding (R50 to R53, R61): one instruction, an index of the
program store, a whole program; and the written-out words of R57. -/

namespace Sys2Proof.Machine

/-! Whole programs -/

/-- Only the words of an instruction decode to it, and what follows them is left over (R52). -/
theorem decode_eq_instr_iff {ws rest : List Word} {i : Instr} :
    decode ws = .instr i rest ↔ ws = encode i ++ rest := by
  refine ⟨fun h => ?_, fun h => h ▸ decode_encode_append i rest⟩
  rcases decode_cases ws with ⟨-, hd⟩ | ⟨op, tl, -, -, hd⟩ | ⟨m, tl, -, -, hd⟩ | ⟨j, tl, hws, hd⟩
  · cases h.symm.trans hd
  · cases h.symm.trans hd
  · cases h.symm.trans hd
  · obtain ⟨rfl, rfl⟩ := Decoded.instr.inj (h.symm.trans hd)
    exact hws

@[simp] theorem encodeProgram_cons (i : Instr) (is : List Instr) :
    encodeProgram (i :: is) = encode i ++ encodeProgram is := rfl

theorem encodeProgram_eq_nil_iff {is : List Instr} : encodeProgram is = [] ↔ is = [] := by
  cases is <;> simp [encodeProgram, encode]

@[simp] theorem decodeInstrs_nil (n : Nat) : decodeInstrs n [] = some [] := by
  cases n <;> rfl

/-- With a bound left, sequential decoding reads one instruction off the head, then the rest (R52). -/
theorem decodeInstrs_succ_eq_cons_iff {n : Nat} {ws : List Word} {i : Instr} {is : List Instr} :
    decodeInstrs (n + 1) ws = some (i :: is) ↔
      ∃ rest, ws = encode i ++ rest ∧ decodeInstrs n rest = some is := by
  simp only [← decode_eq_instr_iff]
  rcases ws with _ | ⟨op, tl⟩
  · simp [decode]
  · simp only [decodeInstrs]
    rcases decode (op :: tl) with ⟨j, rest⟩ | op' | op' | _ <;> simp
    constructor
    · rintro ⟨h, rfl⟩; exact ⟨rfl, h⟩
    · rintro ⟨rfl, h⟩; exact ⟨h, rfl⟩

/-- Nothing but the empty list of words decodes to no instructions. -/
theorem decodeInstrs_eq_nil_iff {n : Nat} {ws : List Word} :
    decodeInstrs n ws = some [] ↔ ws = [] := by
  rcases ws with _ | ⟨op, tl⟩
  · simp
  · rcases n with _ | n
    · simp [decodeInstrs]
    · simp only [decodeInstrs]
      split <;> simp

/-- A bound of at least the number of words is enough for sequential decoding to be exact, by induction on
the bound. -/
theorem decodeInstrs_eq_some_iff {n : Nat} {ws : List Word} {is : List Instr} (hn : ws.length ≤ n) :
    decodeInstrs n ws = some is ↔ ws = encodeProgram is := by
  induction n generalizing ws is with
  | zero =>
    obtain rfl := List.length_eq_zero_iff.mp (Nat.le_zero.mp hn)
    rw [decodeInstrs_nil, eq_comm (a := []), encodeProgram_eq_nil_iff, Option.some.injEq, eq_comm]
  | succ n ih =>
    rcases is with _ | ⟨i, is⟩
    · exact decodeInstrs_eq_nil_iff
    · rw [decodeInstrs_succ_eq_cons_iff, encodeProgram_cons]
      have hrest {rest : List Word} (h : ws = encode i ++ rest) : rest.length ≤ n := by
        have hwidth := i.width_bounds
        rw [h, List.length_append, encode_length] at hn
        omega
      constructor
      · rintro ⟨rest, h, hd⟩
        rw [h, (ih (hrest h)).mp hd]
      · intro h
        exact ⟨_, h, (ih (hrest h)).mpr rfl⟩

/-- Settles O5: it holds. The number of words is itself a bound that is enough. -/
theorem programDecodingIsExact : Obligations.ProgramDecodingIsExact :=
  fun _ _ => decodeInstrs_eq_some_iff le_rfl

/-! One instruction -/

/-- Settles O4: it holds. Of the decoder's outcomes only one is an instruction. -/
theorem decodeAndEncodeAgree : Obligations.DecodeAndEncodeAgree :=
  fun _ _ _ => decode_eq_instr_iff

/-- Settles O6: it holds. The words at an index are the word there and the words after it, and the lookup
of the one and the number of the others decide the outcome. -/
theorem decoderOutcomesAreDecidedByTheWords : Obligations.DecoderOutcomesAreDecidedByTheWords := by
  intro P a ha
  rw [decodeAt, drop_eq_cons ha]
  refine ⟨decode_cons_eq_unknownOpcode_iff.mpr, fun m hm hL => ?truncated, fun m hm hL => ?instr⟩
  case truncated =>
    rw [mnemonicOf_eq_some.mp hm]
    exact decode_short (by rw [List.length_drop]; omega)
  case instr =>
    rw [mnemonicOf_eq_some.mp hm]
    obtain ⟨i, rest, hd, rfl, hws⟩ :=
      decode_long (m := m) (ws := P.drop (a + 1)) (by rw [List.length_drop]; omega)
    refine ⟨i, ?_, rfl, ?_⟩
    · rw [hd, ← List.drop_drop, hws, List.drop_left' i.operands_length]
    · rw [hws, List.take_left' i.operands_length]

/-- Settles O1: it holds. Each word list is the encoding of its instruction, with the words left over. -/
theorem writtenWordsDecodeAsTheMapSays : Obligations.WrittenWordsDecodeAsTheMapSays :=
  ⟨decode_encode_append (.movr 1 0) [], decode_encode_append (.movv 3 0xFFFFFFFF) [],
    decode_encode_append (.pop 9) [], decode_encode_append (.call 8) [255],
    decode_encode_append (.jl 1 2 12) [], decode_encode_append .ret [],
    decode_encode_append (.draw 0 1 2) [62], decode_encode_append (.slp 500) []⟩

end Sys2Proof.Machine

/-! PROOFS, 10_state.md. What an instruction can see of the state and what it leaves (R11, R15, R16, R21,
R23). -/

namespace Sys2Proof.Machine

/-! Registers and history that are not seen -/

/-- The value of one register is seen by nothing but reads and writes of that register. -/
theorem unseen_setReg (q : RegIx) (v : Word) : Unseen (fun t => t.setReg q v) where
  pc _ := rfl
  stack _ := rfl
  params _ := rfl
  setPc _ _ := rfl
  setStack _ _ := rfl
  emit _ _ := rfl
  enterHalted _ _ _ := rfl

/-- Settles O37: it holds. A register that is not named is neither read nor written by the instruction, and
no other update sees it. -/
theorem unnamedRegistersAreInvisible : Obligations.UnnamedRegistersAreInvisible := by
  intro i s q v hq
  have hne {r : RegIx} (hr : r ∈ namedRegs i) : r ≠ q := fun h => hq (h ▸ hr)
  exact (unseen_setReg q v).exec (fun _ _ => rfl)
    (fun r hr => State.getReg_setReg_of_ne s v (hne hr))
    (fun r hr t u => State.setReg_comm t v u (hne hr))

/-- The bound check does not see the history. -/
theorem boundCheck_prependHistory (o : Text) (ev : List Event) (L : Nat) (s : State) :
    boundCheck L (s.prependHistory o ev) = (boundCheck L s).prependHistory o ev := by
  rcases boundCheck_cases L s with ⟨hpc, hs, e⟩ | ⟨h, e⟩
  · rw [e, boundCheck_of_outside (t := s.prependHistory o ev) hpc hs]
    exact (unseen_prependHistory o ev).enterHalted s _ _
  · rw [e]
    exact if_neg fun ⟨hpc, hs⟩ => h.elim (Nat.not_lt_of_le hpc) (ne_true_of_eq_false hs)

theorem runInstr_prependHistory (o : Text) (ev : List Event) (L : Nat) (i : Instr) (s : State) :
    runInstr L i (s.prependHistory o ev) = mapNext (State.prependHistory o ev) (runInstr L i s) := by
  obtain ⟨t, he, -⟩ := exec_ends i s
  simp only [runInstr, exec_prependHistory, he, mapNext, boundCheck_prependHistory]

theorem fetchAndRun_prependHistory (o : Text) (ev : List Event) (P : List Word) (s : State) :
    fetchAndRun P (s.prependHistory o ev) = mapNext (State.prependHistory o ev) (fetchAndRun P s) := by
  have hpc : (s.prependHistory o ev).pc = s.pc := rfl
  have hhalt := (unseen_prependHistory o ev).enterHalted s
  simp only [fetchAndRun, hpc, hhalt]
  rcases decodeAt P s.pc.toNat with ⟨i, rest⟩ | op | op | _
  · exact runInstr_prependHistory o ev P.length i s
  · rfl
  · rfl
  · rfl

/-- No stage of a step reads the output buffer or the event trace (R21, R23). -/
theorem step_prependHistory (o : Text) (ev : List Event) (s : State) :
    step (s.prependHistory o ev) = mapNext (State.prependHistory o ev) (step s) := by
  have hpc : (s.prependHistory o ev).pc = s.pc := rfl
  have hprogram : (s.prependHistory o ev).program = s.program := rfl
  have hhalted : (s.prependHistory o ev).halted = s.halted := rfl
  simp only [step, sequencerStep, hpc, hprogram, hhalted]
  rcases s.program with _ | P
  · rfl
  · dsimp only
    split
    · exact congrArg Host.Outcome.next ((unseen_prependHistory o ev).emit s _)
    split
    · exact congrArg Host.Outcome.next ((unseen_prependHistory o ev).enterHalted s _ _)
    · exact fetchAndRun_prependHistory o ev P s

/-- Settles O38: it holds. No stage of a step sees the history. -/
theorem outputHistoryIsNotRead : Obligations.OutputHistoryIsNotRead :=
  fun s o ev => step_prependHistory o ev s

/-! What an instruction leaves -/

/-- From `s` to `t` no register changes that the destination of `i` does not name (R11), the stack changes
at its top only, and only under the four stack instructions (R15, R16), and the trace grows (R23). -/
structure Framed (i : Instr) (s t : State) : Prop where
  reg : ∀ q : RegIx, (∀ w, writtenWord i = some w → w.toInt ≠ (q.val : Int)) → t.getReg q = s.getReg q
  stack : t.stack = s.stack ∨
    (((∃ v, t.stack = v :: s.stack) ∨ t.stack = s.stack.tail) ∧
      ∃ w, i = .push w ∨ i = .pop w ∨ i = .call w ∨ i = .ret)
  events : s.events <+: t.events

/-- A write to the register that the destination word names leaves the other registers. -/
theorem getReg_setReg_of_toInt_ne {s : State} {w v : Word} {d q : RegIx} (hd : regIndex? w = some d)
    (hw : w.toInt ≠ (q.val : Int)) : (s.setReg d v).getReg q = s.getReg q :=
  State.getReg_setReg_of_ne s v fun h => hw (h ▸ regIndex?_eq_some.mp hd)

/-- An instruction's own effect leaves what it does not name. -/
theorem completed_framed {i : Instr} {s t : State} (c : Completed s t i) : Framed i s t := by
  cases i <;> simp only [Completed] at c
  case movr w _ =>
    obtain ⟨d, r, hd, -, rfl⟩ := c
    exact ⟨fun q hq => getReg_setReg_of_toInt_ne hd (hq w rfl), .inl rfl, List.prefix_rfl⟩
  case movv w _ =>
    obtain ⟨d, hd, rfl⟩ := c
    exact ⟨fun q hq => getReg_setReg_of_toInt_ne hd (hq w rfl), .inl rfl, List.prefix_rfl⟩
  case add w _ =>
    obtain ⟨d, r, hd, -, rfl⟩ := c
    exact ⟨fun q hq => getReg_setReg_of_toInt_ne hd (hq w rfl), .inl rfl, List.prefix_rfl⟩
  case sub w _ =>
    obtain ⟨d, r, hd, -, rfl⟩ := c
    exact ⟨fun q hq => getReg_setReg_of_toInt_ne hd (hq w rfl), .inl rfl, List.prefix_rfl⟩
  case push w =>
    obtain ⟨r, -, -, rfl⟩ := c
    exact ⟨fun _ _ => rfl, .inr ⟨.inl ⟨_, rfl⟩, w, .inl rfl⟩, List.prefix_rfl⟩
  case pop w =>
    obtain ⟨d, hd, rfl⟩ := c
    exact ⟨fun q hq => getReg_setReg_of_toInt_ne hd (hq w rfl), .inr ⟨.inr rfl, w, .inr (.inl rfl)⟩,
      List.prefix_rfl⟩
  case jp => subst c; exact ⟨fun _ _ => rfl, .inl rfl, List.prefix_rfl⟩
  case jl =>
    obtain ⟨a, b, -, -, rfl⟩ := c
    split <;> exact ⟨fun _ _ => rfl, .inl rfl, List.prefix_rfl⟩
  case call w =>
    obtain ⟨-, rfl⟩ := c
    exact ⟨fun _ _ => rfl, .inr ⟨.inl ⟨_, rfl⟩, w, .inr (.inr (.inl rfl))⟩, List.prefix_rfl⟩
  case ret =>
    subst c
    exact ⟨fun _ _ => rfl, .inr ⟨.inr rfl, 0, .inr (.inr (.inr rfl))⟩, List.prefix_rfl⟩
  case print => obtain ⟨r, -, rfl⟩ := c; exact ⟨fun _ _ => rfl, .inl rfl, List.prefix_append _ _⟩
  case draw =>
    obtain ⟨a, b, e, -, -, -, rfl⟩ := c
    exact ⟨fun _ _ => rfl, .inl rfl, List.prefix_append _ _⟩
  case cls => subst c; exact ⟨fun _ _ => rfl, .inl rfl, List.prefix_append _ _⟩
  case slp => subst c; exact ⟨fun _ _ => rfl, .inl rfl, List.prefix_append _ _⟩
  case halt => subst c; exact ⟨fun _ _ => rfl, .inl rfl, List.prefix_append _ _⟩

/-- Entry into HALTED changes no register and no stack, and sends one event (R168). -/
theorem enterHalted_framed (i : Instr) (s : State) (c : Cause) (d : Diag) :
    Framed i s (s.enterHalted c d) :=
  ⟨fun _ _ => rfl, .inl rfl, List.prefix_append _ _⟩

/-- Every instruction leaves what it does not name, whichever way it ends. -/
theorem exec_framed {i : Instr} {s t : State} (h : exec i s = .next t) : Framed i s t := by
  rcases exec_cases h with ⟨k, w, -, rfl⟩ | ⟨-, ⟨-, rfl⟩ | ⟨-, rfl⟩⟩ | ⟨-, c⟩
  · exact enterHalted_framed i s _ _
  · exact enterHalted_framed i s _ _
  · exact enterHalted_framed i s _ _
  · exact completed_framed c

/-- Settles O30: it holds. It is the register clause of every instruction's frame. -/
theorem onlyTheDestinationRegisterChanges : Obligations.OnlyTheDestinationRegisterChanges :=
  fun _ _ _ q h => (exec_framed h).reg q

/-- Settles O31: it holds. It is the stack clause of every instruction's frame. -/
theorem onlyTheTopOfTheStackChanges : Obligations.OnlyTheTopOfTheStackChanges := by
  intro i s t h
  rcases (exec_framed h).stack with hsame | ⟨htop, hi⟩
  · exact ⟨.inl hsame, fun hne => absurd hsame hne⟩
  · exact ⟨.inr htop, fun _ => hi⟩

/-! What a step and `init` leave -/

/-- The bound check only adds to the trace. -/
theorem boundCheck_events (L : Nat) (t : State) : t.events <+: (boundCheck L t).events := by
  rcases boundCheck_cases L t with ⟨-, -, e⟩ | ⟨-, e⟩
  · rw [e]; exact List.prefix_append _ _
  · rw [e]

/-- Settles O33: it holds. Neither an instruction nor another stage of a step writes them. -/
theorem programAndParametersAreConstant : Obligations.ProgramAndParametersAreConstant := by
  intro s t h
  obtain ⟨P, -, hends⟩ := step_cases h
  cases hends with
  | whileHalted => exact ⟨rfl, rfl⟩
  | nothingToFetch => exact ⟨rfl, rfl⟩
  | unknownOpcode => exact ⟨rfl, rfl⟩
  | truncated => exact ⟨rfl, rfl⟩
  | ran i rest u _ _ _ _ he =>
    obtain ⟨hprogram, hparams⟩ := exec_frame he
    exact ⟨(boundCheck_program _ u).trans hprogram, (boundCheck_params _ u).trans hparams⟩

/-- Settles O34: it holds. Every stage of a step, and `init`, only adds events at the end. -/
theorem eventTraceOnlyGrows : Obligations.EventTraceOnlyGrows := by
  refine ⟨fun s t h => ?step, fun P text0 s t h => ?init⟩
  case step =>
    obtain ⟨P, -, hends⟩ := step_cases h
    cases hends with
    | whileHalted => exact List.prefix_append _ _
    | nothingToFetch => exact List.prefix_append _ _
    | unknownOpcode => exact List.prefix_append _ _
    | truncated => exact List.prefix_append _ _
    | ran i rest u _ _ _ _ he => exact (exec_framed he).events.trans (boundCheck_events _ u)
  case init =>
    obtain ⟨-, rfl⟩ := initCommand_next h
    exact List.prefix_append _ _

end Sys2Proof.Machine

/-! PROOFS, 60_exceptions.md. The causes (R160, R166, R168) and the invariant of the reachable states. -/

namespace Sys2Proof.Machine

/-! How a step of a RUNNING machine ends -/

/-- The ways a step of a RUNNING machine with program `P` ends: in place with a cause that the state
explains, past a HALT, or with a completed instruction and the bound check. -/
inductive RunningStepEnds (P : List Word) (s : State) : State → Prop where
  /-- S2 to S6 (R84 to R88): only `halted`, `cause` and the trace change. -/
  | stopped (c : Cause) (d : Diag) : c ≠ .none → (c.isPrecise = true → d.level = .error) →
      CauseExplained P { s with cause := c } → RunningStepEnds P s (s.enterHalted c d)
  /-- HALT (R151). -/
  | halted : s.pc.toNat < P.length → P[s.pc.toNat]? = some 255 →
      RunningStepEnds P s ((s.enterHalted .haltInstr (.halt s.pc)).advance 1)
  /-- S7 after an instruction that leaves the machine RUNNING (R89). -/
  | completed (i : Instr) (u : State) : exec i s = .next u → u.halted = false → u.cause = s.cause →
      RunningStepEnds P s (boundCheck P.length u)

/-- The bound check leaves a HALTED machine alone. -/
theorem boundCheck_of_halted {L : Nat} {t : State} (h : t.halted = true) : boundCheck L t = t :=
  if_neg fun ⟨_, hs⟩ => Bool.false_ne_true (hs.symm.trans h)

/-- The first of the words left at an index is the word there. -/
theorem getElem?_of_drop_eq_cons {P tl : List Word} {a : Nat} {op : Word} (h : P.drop a = op :: tl) :
    P[a]? = some op := by
  rw [← List.head?_drop, h, List.head?_cons]

/-- What a step of a RUNNING machine that answers `t` did. -/
theorem running_step_ends {s t : State} {P : List Word} (hP : s.program = some P) (hs : s.halted = false)
    (h : step s = .next t) : RunningStepEnds P s t := by
  obtain ⟨Q, hQ, hends⟩ := step_cases h
  obtain rfl : P = Q := Option.some.inj (hP.symm.trans hQ)
  cases hends with
  | whileHalted hr => exact absurd (hs.symm.trans hr) Bool.false_ne_true
  | nothingToFetch _ hL => exact .stopped _ _ nofun nofun hL
  | unknownOpcode op tl _ _ hd hnone =>
    exact .stopped _ _ nofun (fun _ => rfl) ⟨op, getElem?_of_drop_eq_cons hd, hnone⟩
  | truncated m tl _ hlt hd hshort =>
    refine .stopped _ _ nofun (fun _ => rfl)
      ⟨m.opcode, m, getElem?_of_drop_eq_cons hd, mnemonicOf_opcode m, hlt, ?_⟩
    show P.length ≤ s.pc.toNat + m.arity
    have hlen := congrArg List.length hd
    rw [List.length_drop, List.length_cons] at hlen
    omega
  | ran i rest u _ hlt hd hdec he =>
    rcases exec_cases he with ⟨k, w, hbad, rfl⟩ | ⟨-, ⟨hfull, rfl⟩ | ⟨hfault, rfl⟩⟩ | ⟨-, c⟩
    · rw [boundCheck_of_halted rfl]
      exact .stopped _ _ nofun (fun _ => rfl) ⟨i, rest, hdec, firstBadOperand_not_wf hbad⟩
    · rw [boundCheck_of_halted rfl]
      exact .stopped _ _ nofun (fun _ => rfl) ⟨hlt, hfull⟩
    · rw [boundCheck_of_halted rfl]
      exact .stopped _ _ nofun (fun _ => rfl) ⟨hlt, hfault⟩
    · rcases completed_status c with ⟨rfl, rfl⟩ | ⟨-, hhalted, hcause⟩
      · rw [boundCheck_of_halted rfl]
        exact .halted hlt (getElem?_of_drop_eq_cons hd)
      · exact .completed i u he (hhalted.trans hs) hcause

/-- Settles O40: it holds. Of the ways a step ends only the one that stops in place records a precise
cause. -/
theorem fatalErrorsArePrecise : Obligations.FatalErrorsArePrecise := by
  intro s t h hs hc hprecise
  obtain ⟨P, hP, -⟩ := step_cases h
  cases running_step_ends hP hs h with
  | stopped c d _ hlevel _ =>
    rw [State.enterHalted_of_cause_none hc] at hprecise ⊢
    exact ⟨d, by rw [hlevel hprecise]⟩
  | halted =>
    rw [State.enterHalted_of_cause_none hc] at hprecise
    exact absurd hprecise (show ¬ Cause.haltInstr.isPrecise = true by decide)
  | completed i u _ hu hcause =>
    rcases boundCheck_cases P.length u with ⟨-, -, e⟩ | ⟨-, e⟩
    · rw [e, State.enterHalted_of_cause_none (hcause.trans hc)] at hprecise
      exact absurd hprecise (show ¬ Cause.pcOutOfBounds.isPrecise = true by decide)
    · rw [e, hcause, hc] at hprecise
      exact absurd hprecise (by decide)

/-! Where the overflow causes come from -/

/-- The parameters and the stack allow the cause: the two overflow causes are raised only under finite
parameters (R166). -/
def Raisable (s : State) : Cause → Prop
  | .stackOverflow => stackFull s = true
  | .arithOverflow => s.params.arithOverflow = .fault
  | _ => True

/-- A cause that the state explains is one that its parameters allow. -/
theorem raisable_of_causeExplained {P : List Word} {s : State} {c : Cause}
    (h : CauseExplained P { s with cause := c }) : Raisable s c := by
  cases c
  case stackOverflow => exact h.2
  case arithOverflow => exact h.2
  all_goals trivial

/-- Entry into HALTED keeps the cause or records the one given (R168). -/
theorem enterHalted_cause_cases (s : State) (c : Cause) (d : Diag) :
    (s.enterHalted c d).cause = s.cause ∨ (s.enterHalted c d).cause = c := by
  rw [State.enterHalted_cause]
  split
  · exact .inr rfl
  · exact .inl rfl

/-- A step keeps the cause or records one that the parameters allow. -/
theorem step_cause {s t : State} (h : step s = .next t) : t.cause = s.cause ∨ Raisable s t.cause := by
  have entered (c : Cause) (d : Diag) (hc : Raisable s c) :
      (s.enterHalted c d).cause = s.cause ∨ Raisable s (s.enterHalted c d).cause := by
    rcases enterHalted_cause_cases s c d with e | e
    · exact .inl e
    · rw [e]; exact .inr hc
  obtain ⟨P, hP, hends⟩ := step_cases h
  rcases hs : s.halted with _ | _
  · cases running_step_ends hP hs h with
    | stopped c d _ _ hexp => exact entered c d (raisable_of_causeExplained hexp)
    | halted => exact entered .haltInstr (.halt s.pc) trivial
    | completed i u _ _ hcause =>
      rcases boundCheck_cases P.length u with ⟨-, -, e⟩ | ⟨-, e⟩ <;> rw [e]
      · rcases enterHalted_cause_cases u .pcOutOfBounds (.pcOutOfBounds u.pc) with e | e <;> rw [e]
        · exact .inl hcause
        · exact .inr trivial
      · exact .inl hcause
  · cases hends with
    | whileHalted => exact .inl rfl
    | nothingToFetch hr | unknownOpcode _ _ hr | truncated _ _ hr | ran _ _ _ hr =>
      exact absurd (hr.symm.trans hs) Bool.false_ne_true

/-- A stack of unbounded depth is never full (R15). -/
theorem stackFull_of_unbounded {s : State} (h : s.params.stackDepth = none) : stackFull s = false := by
  rw [stackFull, h]

/-- Settles O35: it holds. Neither overflow cause is raisable under the default of its parameter. -/
theorem defaultParametersRaiseNothing : Obligations.DefaultParametersRaiseNothing := by
  intro s t h
  have raised {c : Cause} (hs : s.cause ≠ c) (ht : t.cause = c) : Raisable s c :=
    ht ▸ (step_cause h).resolve_left fun e => hs (e.symm.trans ht)
  refine ⟨fun hwrap hs ht => ?arith, fun hdepth hs ht => ?stack⟩
  case arith => cases hwrap.symm.trans (raised hs ht)
  case stack => exact Bool.false_ne_true ((stackFull_of_unbounded hdepth).symm.trans (raised hs ht))

/-! The invariant -/

/-- The power-on state has an empty stack and no program (R25). -/
theorem inv_powerOn (p : Config.Params) (x : Vector Word Config.nregs) : Inv (State.powerOn p x) where
  causeNone := ⟨fun _ => rfl, fun _ => rfl⟩
  storeWf := nofun
  explained := nofun
  depth _ _ := Nat.zero_le _

/-- Settles O44: it holds. Reset is a power-on state. -/
theorem powerOnSatisfiesTheInvariant : Obligations.PowerOnSatisfiesTheInvariant :=
  ⟨inv_powerOn _ _, inv_powerOn⟩

/-- With a program installed, the invariant speaks of that program. -/
theorem Inv.of_program {s : State} {P : List Word} (hP : s.program = some P)
    (hcause : s.cause = .none ↔ s.halted = false) (hwf : Memory.wf P) (hexp : CauseExplained P s)
    (hdepth : ∀ d, s.params.stackDepth = some d → s.stack.length ≤ d) : Inv s where
  causeNone := hcause
  storeWf _ hQ := Option.some.inj (hP.symm.trans hQ) ▸ hwf
  explained _ hQ := Option.some.inj (hP.symm.trans hQ) ▸ hexp
  depth := hdepth

/-- The state after `init` stands at index 0 of a program of legal length, with an empty stack (R80). -/
theorem inv_initCommand {P : List Word} {text0 : Text} {s t : State}
    (h : initCommand P text0 s = .next t) : Inv t := by
  obtain ⟨hwf, rfl⟩ := initCommand_next h
  refine Inv.of_program (P := P) rfl ⟨fun _ => rfl, fun _ => rfl⟩ hwf ?_ fun d _ => Nat.zero_le d
  rcases P with _ | ⟨op, tl⟩
  · exact .inr ⟨rfl, rfl⟩
  · exact .inl (Nat.zero_lt_succ _)

/-- Settles O45: it holds. `init` answers only for a program of legal length. -/
theorem initEstablishesTheInvariant : Obligations.InitEstablishesTheInvariant :=
  fun _ _ _ _ => inv_initCommand

/-- The invariant does not look at the registers, the output buffer and the trace. -/
theorem Inv.congr {s t : State} (hi : Inv s) (hcause : t.cause = s.cause) (hhalted : t.halted = s.halted)
    (hprogram : t.program = s.program) (hpc : t.pc = s.pc) (hparams : t.params = s.params)
    (hstack : t.stack = s.stack) : Inv t where
  causeNone := by rw [hcause, hhalted]; exact hi.causeNone
  storeWf := by rw [hprogram]; exact hi.storeWf
  explained := by
    simp only [hprogram, CauseExplained, hcause, hpc, hparams, stackFull_congr hstack hparams]
    exact hi.explained
  depth := by rw [hparams, hstack]; exact hi.depth

/-- A HALTED machine meets the invariant where its cause is explained. -/
theorem Inv.of_halted {s : State} {P : List Word} (hP : s.program = some P) (hwf : Memory.wf P)
    (hs : s.halted = true) (hc : s.cause ≠ .none) (hexp : CauseExplained P s)
    (hdepth : ∀ d, s.params.stackDepth = some d → s.stack.length ≤ d) : Inv s :=
  Inv.of_program hP (iff_of_false hc (ne_false_of_eq_true hs)) hwf hexp hdepth

/-- The bound check establishes the clauses on `cause` and `pc` after an instruction that leaves the
machine RUNNING (R89). -/
theorem inv_boundCheck {s : State} {P : List Word} (hP : s.program = some P) (hwf : Memory.wf P)
    (hs : s.halted = false) (hc : s.cause = .none)
    (hdepth : ∀ d, s.params.stackDepth = some d → s.stack.length ≤ d) : Inv (boundCheck P.length s) := by
  rcases boundCheck_cases P.length s with ⟨hL, -, e⟩ | ⟨hlt | hhalted, e⟩
  · rw [e, State.enterHalted_of_cause_none hc]
    exact Inv.of_halted hP hwf rfl nofun hL hdepth
  · rw [e]
    refine Inv.of_program hP (iff_of_true hc hs) hwf ?_ hdepth
    rw [CauseExplained, hc]
    exact .inl hlt
  · exact absurd (hs.symm.trans hhalted) Bool.false_ne_true

/-- No instruction makes the stack longer than a finite depth (R15). -/
theorem exec_depth {i : Instr} {s t : State} (h : exec i s = .next t)
    (hdepth : ∀ d, s.params.stackDepth = some d → s.stack.length ≤ d) :
    ∀ d, t.params.stackDepth = some d → t.stack.length ≤ d := by
  rw [(exec_frame h).2]
  intro d hd
  rcases exec_cases h with ⟨k, w, -, rfl⟩ | ⟨-, ⟨-, rfl⟩ | ⟨-, rfl⟩⟩ | ⟨-, c⟩
  · exact hdepth d hd
  · exact hdepth d hd
  · exact hdepth d hd
  · rcases completed_stack_length c with hle | ⟨hroom, hlen⟩
    · exact hle.trans (hdepth d hd)
    · exact hlen ▸ room_depth hroom hd

/-- The index after a word of a program of legal length does not wrap (R13). -/
theorem toNat_add_one_of_inside {P : List Word} {pc : Word} (hwf : Memory.wf P)
    (hpc : pc.toNat < P.length) : (pc + 1).toNat = pc.toNat + 1 := by
  have hlen : P.length ≤ 2 ^ 31 - 1 := hwf
  exact (BitVec.toNat_add pc 1).trans (Nat.mod_eq_of_lt (by simp only [BitVec.reduceToNat]; omega))

/-- Every step keeps the invariant. -/
theorem Inv.step {s t : State} (hi : Inv s) (h : step s = .next t) : Inv t := by
  obtain ⟨P, hP, hends⟩ := step_cases h
  have hwf := hi.storeWf P hP
  rcases hs : s.halted with _ | _
  · have hc := hi.causeNone.mpr hs
    cases running_step_ends hP hs h with
    | stopped c d hne _ hexp =>
      rw [State.enterHalted_of_cause_none hc]
      exact Inv.of_halted hP hwf rfl hne hexp hi.depth
    | halted hlt hop =>
      rw [State.enterHalted_of_cause_none hc]
      exact Inv.of_halted hP hwf rfl nofun ⟨s.pc.toNat, toNat_add_one_of_inside hwf hlt, hop⟩ hi.depth
    | completed i u he hu hcause =>
      exact inv_boundCheck ((exec_frame he).1.trans hP) hwf hu (hcause.trans hc) (exec_depth he hi.depth)
  · cases hends with
    | whileHalted => exact hi.congr rfl rfl rfl rfl rfl rfl
    | nothingToFetch hr | unknownOpcode _ _ hr | truncated _ _ hr | ran _ _ _ hr =>
      exact absurd (hr.symm.trans hs) Bool.false_ne_true

/-- Settles O46: it holds. A HALTED machine only reports, and each way a step of a RUNNING machine ends
explains its cause. -/
theorem stepKeepsTheInvariant : Obligations.StepKeepsTheInvariant :=
  fun _ _ hi h => hi.step h

/-- Every state a host can reach satisfies the invariant. -/
theorem Reachable.inv {s : State} (h : Reachable s) : Inv s := by
  induction h with
  | powerOn p x => exact inv_powerOn p x
  | init P text0 _ hinit _ => exact inv_initCommand hinit
  | step _ hstep hi => exact hi.step hstep

/-- Before the first `init` a step is refused (R195). -/
theorem step_of_no_program {s : State} (h : s.program = none) : step s = .refused .notInitialised := by
  rw [step, sequencerStep, h]

/-- Settles O47: it holds. The invariant is an induction over the commands, and a step answers wherever a
program is installed. -/
theorem reachableStatesAreSound : Obligations.ReachableStatesAreSound := by
  intro s hreach
  refine ⟨hreach.inv, ?_⟩
  rcases hP : s.program with _ | P
  · exact .inr ⟨rfl, step_of_no_program hP⟩
  · obtain ⟨t, h, -⟩ := step_ends hP
    exact .inl ⟨t, h⟩

end Sys2Proof.Machine

/-! PROOFS, 40_sequencer.md. The commands `init`, `step` and `run` (R80 to R91), and power-on (R25). -/

namespace Sys2Proof.Machine

/-! The stages of a step -/

/-- The bound check, with what it writes spelled out (R89). -/
theorem boundCheck_eq (L : Nat) (t : State) : boundCheck L t =
    if L ≤ t.pc.toNat ∧ t.halted = false then
      { t with
        halted := true
        cause := if t.cause = .none then .pcOutOfBounds else t.cause
        events := t.events ++ [.diag .warning (.pcOutOfBounds t.pc)] }
    else t := rfl

/-- Settles O7: it holds. The instruction answers a next state, and the bound check is what is written
there. -/
theorem stepRunsTheDecodedInstruction : Obligations.StepRunsTheDecodedInstruction := by
  intro s P rest i hP hs hd
  obtain ⟨t, he, -⟩ := exec_ends i s
  rw [step_of_encode hP hs hd he, he, mapNext, boundCheck_eq]

/-- S1: a HALTED machine only reports (R83). -/
theorem step_of_halted {s : State} {P : List Word} (hP : s.program = some P) (hs : s.halted = true) :
    step s = .next (s.emitDiag (.steppedWhileHalted s.pc)) := by
  simp only [step, sequencerStep, hP, hs, if_true]

/-- Settles O8: it holds. It is stage S1. -/
theorem stepWhileHaltedOnlyReports : Obligations.StepWhileHaltedOnlyReports :=
  fun _ _ => step_of_halted

/-- S2: a RUNNING machine outside its program halts (R84). -/
theorem step_of_outside {s : State} {P : List Word} (hP : s.program = some P) (hs : s.halted = false)
    (hL : P.length ≤ s.pc.toNat) :
    step s = .next (s.enterHalted .pcOutOfBounds (.pcOutOfBounds s.pc)) := by
  simp only [step, sequencerStep, hP, hs, Bool.false_eq_true, if_false, hL, if_true]

/-- Settles O9: it holds. It is stage S2, with no cause recorded before. -/
theorem stepWithNothingToFetchHalts : Obligations.StepWithNothingToFetchHalts := by
  intro s P hP hs hc hL
  rw [step_of_outside hP hs hL, State.enterHalted_of_cause_none hc]
  rfl

/-- S3: a word that is no opcode halts the machine in place (R85). -/
theorem fetchAndRun_of_unknown {s : State} {P tl : List Word} {op : Word}
    (hd : P.drop s.pc.toNat = op :: tl) (hnone : mnemonicOf op = none) : fetchAndRun P s =
      .next (s.enterHalted .unknownOpcode (.unknownOpcode op.toInt none s.pc)) := by
  simp only [fetchAndRun, decodeAt, hd, decode_cons_eq_unknownOpcode_iff.mpr hnone, hnone]

/-- Settles O10: it holds. A word whose signed value is none of the 15 is missed by the reverse lookup. -/
theorem unknownOpcodeHaltsInPlace : Obligations.UnknownOpcodeHaltsInPlace := by
  intro s P op hP hs hc hop hvalue
  rw [← Mnemonic.all_map_opcode_toInt, ← mnemonicOf_eq_none_iff_toInt] at hvalue
  obtain ⟨hlt, rfl⟩ := List.getElem?_eq_some_iff.mp hop
  rw [step_of_inside hP hs hlt, fetchAndRun_of_unknown (drop_eq_cons hlt) hvalue,
    State.enterHalted_of_cause_none hc]
  rfl

/-- Settles O11: it holds. It is stage S4 for every mnemonic. -/
theorem truncatedInstructionHaltsInPlace : Obligations.TruncatedInstructionHaltsInPlace :=
  truncationStops

/-- Settles O12: it holds. It is stage S5 for every instruction. -/
theorem firstBadRegisterOperandHaltsInPlace : Obligations.FirstBadRegisterOperandHaltsInPlace :=
  badOperandStops

/-- Settles O13: it holds. Without a program no stage is reached. -/
theorem stepBeforeInitIsRefused : Obligations.StepBeforeInitIsRefused :=
  fun _ => step_of_no_program

/-- Settles O14: it holds. Each way a step ends is a next state. -/
theorem everyStepOfAProgramAnswers : Obligations.EveryStepOfAProgramAnswers := by
  intro s P hP
  obtain ⟨t, h, -⟩ := step_ends hP
  exact ⟨t, h⟩

/-! `init` and power-on -/

/-- Settles O42: it holds. Each field is as `State.powerOn` sets it. -/
theorem powerOnState : Obligations.PowerOnState :=
  ⟨fun _ _ => ⟨rfl, rfl, rfl, rfl, rfl⟩, defaultParams, resetRegs, rfl⟩

/-- Settles O43: it holds. The two clauses are the two branches of `init`. -/
theorem initStartsARun : Obligations.InitStartsARun :=
  fun _ _ _ => ⟨fun hlegal => if_neg (Nat.not_lt_of_le hlegal), fun hlong => if_pos hlong⟩

/-! `run` -/

theorem runCommand_of_halted {s : State} (hs : s.halted = true) (n : Nat) :
    runCommand n s = some (.next s) := by
  cases n <;> rw [runCommand, if_pos hs]

/-- A run of a RUNNING machine makes a step, and then runs on. -/
theorem runCommand_succ_of_running {s t : State} (hs : s.halted = false) (n : Nat) :
    runCommand (n + 1) s = some (.next t) ↔
      ∃ m, step s = .next m ∧ runCommand n m = some (.next t) := by
  rw [runCommand, if_neg (ne_true_of_eq_false hs)]
  rcases step s with m | f | r <;> simp

/-- A HALTED machine makes no steps. -/
theorem stepsTo_of_halted {s t : State} (hs : s.halted = true) {k : Nat} :
    StepsTo k s t ↔ k = 0 ∧ s = t := by
  cases k <;> simp [StepsTo, hs]

/-- A run of a HALTED machine ends where it stands, whatever the bound (decision D26). -/
theorem runCommand_iff_of_halted {s t : State} (hs : s.halted = true) (n : Nat) :
    runCommand n s = some (.next t) ↔ ∃ k, k ≤ n ∧ StepsTo k s t ∧ t.halted = true := by
  rw [runCommand_of_halted hs]
  constructor
  · rintro ⟨⟩
    exact ⟨0, Nat.zero_le n, rfl, hs⟩
  · rintro ⟨k, -, hsteps, -⟩
    rw [((stepsTo_of_halted hs).mp hsteps).2]

/-- A RUNNING machine is not yet at the end of its run. -/
theorem not_stepsTo_zero_halted {s t : State} (hs : s.halted = false) (h : StepsTo 0 s t) :
    t.halted ≠ true := by
  obtain rfl : s = t := h
  exact ne_true_of_eq_false hs

/-- Settles O41: it holds, by induction on the bound: a HALTED machine ends its run at once, and a RUNNING
one makes a step. -/
theorem runIsStepsUntilHalted : Obligations.RunIsStepsUntilHalted := by
  intro n
  induction n with
  | zero =>
    intro s t
    rcases hs : s.halted with _ | _
    · simp only [runCommand, hs, Bool.false_eq_true, if_false, reduceCtorEq, false_iff]
      rintro ⟨k, hk, hsteps, ht⟩
      obtain rfl := Nat.le_zero.mp hk
      exact not_stepsTo_zero_halted hs hsteps ht
    · exact runCommand_iff_of_halted hs 0
  | succ n ih =>
    intro s t
    rcases hs : s.halted with _ | _
    · rw [runCommand_succ_of_running hs]
      constructor
      · rintro ⟨m, hm, hrun⟩
        obtain ⟨k, hk, hsteps, ht⟩ := (ih m t).mp hrun
        exact ⟨k + 1, Nat.succ_le_succ hk, ⟨hs, m, hm, hsteps⟩, ht⟩
      · rintro ⟨_ | k, hk, hsteps, ht⟩
        · exact absurd ht (not_stepsTo_zero_halted hs hsteps)
        · obtain ⟨-, m, hm, hsteps⟩ := hsteps
          exact ⟨m, hm, (ih m t).mpr ⟨k, Nat.le_of_succ_le_succ hk, hsteps, ht⟩⟩
    · exact runCommand_iff_of_halted hs (n + 1)

end Sys2Proof.Machine

/-! PROOFS, 42_arithmetic.md. ADD and SUB (R110 to R112). -/

namespace Sys2Proof.Machine

/-- An exact result is written under wrap, and wherever it fits (R112). -/
theorem overflowRaises_eq_false {p : Config.Params} {v : Int}
    (h : p.arithOverflow = .wrap ∨ (-2 ^ 31 ≤ v ∧ v < 2 ^ 31)) : overflowRaises p v = false := by
  rcases h with h | ⟨hlow, hhigh⟩
  · simp [overflowRaises, h]
  · simp only [overflowRaises, fitsWord, decide_eq_true hlow, decide_eq_true hhigh, Bool.and_self,
      Bool.not_true, Bool.and_false]

/-- Under fault an exact result that does not fit is raised (R112). -/
theorem overflowRaises_eq_true {p : Config.Params} {v : Int} (hfault : p.arithOverflow = .fault)
    (hv : ¬ (-2 ^ 31 ≤ v ∧ v < 2 ^ 31)) : overflowRaises p v = true := by
  simp only [overflowRaises, fitsWord, hfault, beq_self_eq_true, Bool.true_and,
    ← Bool.decide_and, decide_eq_false hv, Bool.not_false]

/-- ADD of two registers writes the exact signed sum, or raises (R110). -/
theorem exec_add {w1 w2 : Word} {d r : RegIx} (hd : regIndex? w1 = some d) (hr : regIndex? w2 = some r)
    (s : State) : exec (.add w1 w2) s =
      writeExact Mnemonic.add.opcode d ((s.getReg d).toInt + (s.getReg r).toInt) s := by
  simp only [exec, execAdd, withReg_of_some hd, withReg_of_some hr]

/-- SUB of two registers writes the exact signed difference, or raises (R111). -/
theorem exec_sub {w1 w2 : Word} {d r : RegIx} (hd : regIndex? w1 = some d) (hr : regIndex? w2 = some r)
    (s : State) : exec (.sub w1 w2) s =
      writeExact Mnemonic.sub.opcode d ((s.getReg d).toInt - (s.getReg r).toInt) s := by
  simp only [exec, execSub, withReg_of_some hd, withReg_of_some hr]

/-- What writing an exact result leaves: the wrapped result, or a machine halted in place (R112). -/
theorem writeExact_answers (op : Word) (d : RegIx) (v : Int) (s : State) :
    ((s.params.arithOverflow = .wrap ∨ (-2 ^ 31 ≤ v ∧ v < 2 ^ 31)) →
      writeExact op d v s = .next { s with regs := s.regs.set d (wrap32 v), pc := s.pc + 3 }) ∧
    (s.params.arithOverflow = .fault → ¬ (-2 ^ 31 ≤ v ∧ v < 2 ^ 31) → s.cause = .none →
      writeExact op d v s = .next { s with
        halted := true
        cause := .arithOverflow
        events := s.events ++ [.diag .error (.arithOverflow s.pc op)] }) := by
  refine ⟨fun hfits => writeExact_of_fits (overflowRaises_eq_false hfits), fun hfault hv hc => ?raises⟩
  case raises =>
    rw [writeExact_of_raises (overflowRaises_eq_true hfault hv), State.enterHalted_of_cause_none hc]
    rfl

/-- Settles O17: it holds. ADD writes an exact result, the signed sum. -/
theorem addWritesTheSum : Obligations.AddWritesTheSum := by
  intro s w1 w2 d r hd hr v
  rw [exec_add (regIndex?_eq_some.mpr hd) (regIndex?_eq_some.mpr hr)]
  exact writeExact_answers Mnemonic.add.opcode d v s

/-- Settles O18: it holds. SUB writes an exact result, the signed difference. -/
theorem subWritesTheDifference : Obligations.SubWritesTheDifference := by
  intro s w1 w2 d r hd hr v
  rw [exec_sub (regIndex?_eq_some.mpr hd) (regIndex?_eq_some.mpr hr)]
  exact writeExact_answers Mnemonic.sub.opcode d v s

/-- Under wrap the destination holds the wrapped result. -/
theorem getReg_of_writeExact_wrap {op : Word} {d : RegIx} {v : Int} {s t : State}
    (hwrap : s.params.arithOverflow = .wrap) (h : writeExact op d v s = .next t) :
    t.getReg d = wrap32 v := by
  rw [writeExact_of_fits (overflowRaises_eq_false (.inl hwrap))] at h
  obtain rfl := Host.Outcome.next.inj h
  exact (s.setReg d (wrap32 v)).getReg_advance 3 d |>.trans (s.getReg_setReg_self d _)

/-- Wrapping the exact sum of the signed values adds the words. -/
theorem wrap32_toInt_add (a b : Word) : wrap32 (a.toInt + b.toInt) = a + b := by
  rw [wrap32, BitVec.ofInt_add, BitVec.ofInt_toInt, BitVec.ofInt_toInt]

/-- Wrapping the exact difference of the signed values subtracts the words. -/
theorem wrap32_toInt_sub (a b : Word) : wrap32 (a.toInt - b.toInt) = a - b := by
  rw [← BitVec.toInt_inj, wrap32, BitVec.toInt_ofInt, BitVec.toInt_sub]

/-- Settles O36: it holds. The wrapped result is the sum or difference of the words, whose unsigned value
is the one modulo `2 ^ 32`. -/
theorem wrappedResultsIgnoreSignedness : Obligations.WrappedResultsIgnoreSignedness := by
  intro s t u w1 w2 d r hd hr hwrap hadd hsub
  rw [exec_add (regIndex?_eq_some.mpr hd) (regIndex?_eq_some.mpr hr)] at hadd
  rw [exec_sub (regIndex?_eq_some.mpr hd) (regIndex?_eq_some.mpr hr)] at hsub
  rw [getReg_of_writeExact_wrap hwrap hadd, getReg_of_writeExact_wrap hwrap hsub, wrap32_toInt_add,
    wrap32_toInt_sub, BitVec.toNat_add, BitVec.toNat_sub]
  refine ⟨rfl, congrArg (· % 2 ^ 32) ?_⟩
  have hlt := (s.getReg r).isLt
  omega

end Sys2Proof.Machine

/-! PROOFS, 43_stack.md. PUSH (R120), and room on the stack (R15). -/

namespace Sys2Proof.Machine

/-- The stack has room below every finite depth (R15). -/
theorem stackFull_eq_false {s : State} (h : ∀ d, s.params.stackDepth = some d → s.stack.length < d) :
    stackFull s = false := by
  unfold stackFull
  split
  · rfl
  · exact decide_eq_false (Nat.not_le_of_lt (h _ ‹_›))

/-- The stack is full at its finite depth (R15). -/
theorem stackFull_eq_true {s : State} {d : Nat} (hd : s.params.stackDepth = some d)
    (hlen : d ≤ s.stack.length) : stackFull s = true := by
  rw [stackFull, hd]
  exact decide_eq_true hlen

/-- `push(v)` on a stack that is full at its finite depth halts the machine in place (R15, R168). -/
theorem pushThen_of_depth {op v : Word} {s : State} {k : State → Result} {d : Nat}
    (hd : s.params.stackDepth = some d) (hlen : d ≤ s.stack.length) (hc : s.cause = .none) :
    pushThen op v s k = .next { s with
      halted := true
      cause := .stackOverflow
      events := s.events ++ [.diag .error (.stackOverflow s.pc op)] } := by
  rw [pushThen_of_full (stackFull_eq_true hd hlen), State.enterHalted_of_cause_none hc]
  rfl

/-- PUSH of a register pushes its value and goes on to the next instruction (R120). -/
theorem exec_push {w1 : Word} {r : RegIx} (hr : regIndex? w1 = some r) (s : State) :
    exec (.push w1) s =
      pushThen Mnemonic.push.opcode (s.getReg r) s fun t => .next (t.advance 2) := by
  simp only [exec, execPush, withReg_of_some hr]

/-- Settles O19: it holds. The two clauses are those of `push(v)`. -/
theorem pushPutsTheRegisterOnTop : Obligations.PushPutsTheRegisterOnTop := by
  intro s w1 r hr
  rw [exec_push (regIndex?_eq_some.mpr hr)]
  exact ⟨fun hroom => pushThen_of_room (stackFull_eq_false hroom), fun _ => pushThen_of_depth⟩

end Sys2Proof.Machine

/-! PROOFS, 44_control_transfer.md. JL and CALL (R131, R132), the return from a CALL (R133), and targets
outside the program (R14, R89). -/

namespace Sys2Proof.Machine

/-- JL of two registers goes to its address if the first is less, signed, and else on (R131). -/
theorem exec_jl {w1 w2 : Word} {a b : RegIx} (ha : regIndex? w1 = some a) (hb : regIndex? w2 = some b)
    (addr : Word) (s : State) : exec (.jl w1 w2 addr) s =
      if (s.getReg a).toInt < (s.getReg b).toInt then .next (s.setPc addr) else .next (s.advance 4) := by
  simp only [exec, execJl, withReg_of_some ha, withReg_of_some hb, signedLess, decide_eq_true_eq, toPc]

/-- Settles O22: it holds. The two clauses are the two branches of `exec_jl`. -/
theorem jlBranchesOnSignedLess : Obligations.JlBranchesOnSignedLess := by
  intro s w1 w2 addr a b ha hb
  rw [exec_jl (regIndex?_eq_some.mpr ha) (regIndex?_eq_some.mpr hb)]
  exact ⟨fun hless => if_pos hless, fun hnot => if_neg (Int.not_lt.mpr hnot)⟩

/-- CALL pushes the index after it, and then goes to its address (R132). -/
theorem exec_call (addr : Word) (s : State) : exec (.call addr) s =
    pushThen Mnemonic.call.opcode (s.pc + 2) s fun t => .next (t.setPc addr) := rfl

/-- CALL with room on the stack pushes the index after it and goes to its address (R132). -/
theorem exec_call_of_room {s : State} (h : stackFull s = false) (addr : Word) :
    exec (.call addr) s = .next ((s.setStack ((s.pc + 2) :: s.stack)).setPc addr) :=
  (exec_call addr s).trans (pushThen_of_room h)

/-- Settles O23: it holds. The two clauses are those of `push(v)`. -/
theorem callPushesTheReturnIndex : Obligations.CallPushesTheReturnIndex := by
  intro s addr
  rw [exec_call]
  exact ⟨fun hroom => pushThen_of_room (stackFull_eq_false hroom), fun _ => pushThen_of_depth⟩

/-- Settles O50: it holds. With an unbounded stack the CALL pushes, and the RET finds what it pushed. -/
theorem retReturnsPastItsCall : Obligations.RetReturnsPastItsCall := by
  intro s t u v addr hdepth hcall hstack hret
  rw [exec_call_of_room (stackFull_of_unbounded hdepth)] at hcall
  obtain rfl := Host.Outcome.next.inj hcall
  rw [exec_ret_cons hstack] at hret
  obtain rfl := Host.Outcome.next.inj hret
  exact ⟨rfl, rfl⟩

/-- Settles O51: it holds. The RET pops the word that the PUSH put on top. -/
theorem retTakesAPushedDataWord : Obligations.RetTakesAPushedDataWord := by
  intro s t u w1 r hr hdepth hpush hret
  rw [exec_push (regIndex?_eq_some.mpr hr), pushThen_of_room (stackFull_of_unbounded hdepth)] at hpush
  obtain rfl := Host.Outcome.next.inj hpush
  exact (Host.Outcome.next.inj ((exec_ret_cons rfl).symm.trans hret)).symm

/-- Settles O48: it holds. The instruction lies inside a program of at most `2 ^ 31 - 1` words, so neither
the unsigned nor the signed reading wraps. -/
theorem nextIndexDoesNotWrap : Obligations.NextIndexDoesNotWrap := by
  intro P rest pc i hlen hd
  have hinside := width_le_of_drop_eq_encode hd
  have hnext {n : Nat} (hn : pc.toNat + n ≤ P.length) :
      (pc + BitVec.ofNat 32 n).toNat = pc.toNat + n := by
    rw [BitVec.toNat_add, BitVec.toNat_ofNat, Nat.add_mod_mod, Nat.mod_eq_of_lt (by omega)]
  refine ⟨hnext hinside, hinside, fun addr hi => ?call⟩
  case call =>
    subst hi
    have hret : (pc + 2).toNat = pc.toNat + 2 := hnext (n := 2) hinside
    rw [BitVec.toInt_eq_toNat_of_lt (by rw [hret]; change pc.toNat + 2 ≤ _ at hinside; omega), hret]
    rfl

/-- A negative word, read unsigned, is outside every program of legal length (decision D3). -/
theorem length_le_toNat_of_neg {P : List Word} {w : Word} (hlen : P.length ≤ 2 ^ 31 - 1)
    (hw : w.toInt < 0) : P.length ≤ w.toNat := by
  have hbig : ¬ 2 * w.toNat < 2 ^ 32 := fun h => by
    rw [BitVec.toInt_eq_toNat_of_lt h] at hw; omega
  omega

/-- Settles O49: it holds. Each of the four transfers leaves a RUNNING machine with the word in `pc`, which
is outside the program. -/
theorem negativeTargetEndsTheRun : Obligations.NegativeTargetEndsTheRun := by
  intro s P rest w hP hlen hs hc hw
  have hout := length_le_toNat_of_neg hlen hw
  refine ⟨fun hd => ?jp, fun w1 w2 a b ha hb hd hless => ?jl, fun hd hroom => ?call, fun st hd hst => ?ret⟩
  case jp => exact step_of_leaving (i := .jp w) hP hs hd (exec_jp w s) hs hc hout
  case jl =>
    have he := exec_jl (regIndex?_eq_some.mpr ha) (regIndex?_eq_some.mpr hb) w s
    rw [if_pos hless] at he
    exact step_of_leaving (i := .jl w1 w2 w) hP hs hd he hs hc hout
  case call =>
    exact step_of_leaving (i := .call w) hP hs hd (exec_call_of_room (stackFull_eq_false hroom) w) hs hc hout
  case ret => exact step_of_leaving (i := .ret) hP hs hd (exec_ret_cons hst) hs hc hout

end Sys2Proof.Machine

/-! PROOFS, 45_io.md and 46_system.md. PRINT, DRAW, SLP and HALT (R140, R141, R150, R151). -/

namespace Sys2Proof.Machine

/-- PRINT of a register appends its text and the separator, mirrors the text, and goes on (R140). -/
theorem exec_print {w1 : Word} {r : RegIx} (hr : regIndex? w1 = some r) (s : State) : exec (.print w1) s =
    .next (((s.appendOut (dec (s.getReg r) ++ s.params.printSep)).emit
      (.mirror (dec (s.getReg r)))).advance 2) := by
  simp only [exec, execPrint, withReg_of_some hr]

/-- Settles O25: it holds. The effect is `exec_print`. -/
theorem printAppendsTheDecimalText : Obligations.PrintAppendsTheDecimalText := by
  intro s w1 r hr
  rw [exec_print (regIndex?_eq_some.mpr hr), List.append_assoc]
  rfl

/-- DRAW of three registers emits the pixel and goes on (R141). -/
theorem exec_draw {w1 w2 w3 : Word} {a b c : RegIx} (ha : regIndex? w1 = some a)
    (hb : regIndex? w2 = some b) (hc : regIndex? w3 = some c) (s : State) : exec (.draw w1 w2 w3) s =
      .next ((s.emit (.setPixel (s.getReg a).toInt (s.getReg b).toInt
        ((s.getReg c).extractLsb' 0 8))).advance 4) := by
  simp only [exec, execDraw, withReg_of_some ha, withReg_of_some hb, withReg_of_some hc]

/-- The low 8 bits of a word are its value modulo 256. -/
theorem extractLsb'_zero_eight (w : Word) : w.extractLsb' 0 8 = BitVec.ofNat 8 (w.toNat % 256) := by
  apply BitVec.eq_of_toNat_eq
  simp

/-- Settles O26: it holds. The effect is `exec_draw`. -/
theorem drawEmitsThePixel : Obligations.DrawEmitsThePixel := by
  intro s w1 w2 w3 a b c ha hb hc
  rw [exec_draw (regIndex?_eq_some.mpr ha) (regIndex?_eq_some.mpr hb) (regIndex?_eq_some.mpr hc),
    extractLsb'_zero_eight]
  rfl

/-- SLP emits the signed duration and goes on (R150). -/
theorem exec_slp (ms : Word) (s : State) :
    exec (.slp ms) s = .next ((s.emit (.sleep ms.toInt)).advance 2) := rfl

/-- Settles O28: it holds. The effect is `exec_slp`. -/
theorem slpEmitsTheDuration : Obligations.SlpEmitsTheDuration :=
  fun s ms => exec_slp ms s

/-- HALT enters HALTED and goes past its word (R151). -/
theorem exec_halt (s : State) :
    exec .halt s = .next ((s.enterHalted .haltInstr (.halt s.pc)).advance 1) := rfl

/-- Settles O29: it holds. The effect is `exec_halt`, with no cause recorded before. -/
theorem haltEntersHalted : Obligations.HaltEntersHalted := by
  intro s hc
  rw [exec_halt, State.enterHalted_of_cause_none hc]
  rfl

end Sys2Proof.Machine

/-! PROOFS, 30_encoding.md section 5 and 45_io.md. Decimal text (R143) and the assembler (R66 to R75). -/

namespace Sys2Proof.Machine

/-! Decimal text -/

/-- Settles O52: it holds. The digits are those of the magnitude, and only 0 begins with the digit 0. -/
theorem decimalTextIsExact : Obligations.DecimalTextIsExact := by
  intro w
  obtain ⟨hdigits, hvalue, hhead⟩ := decDigits_spec 9 w.toInt.natAbs (toInt_natAbs_lt w)
  refine ⟨decDigits 10 w.toInt.natAbs, rfl, hdigits, hvalue, fun hzero => ?_⟩
  rcases Nat.eq_zero_or_pos w.toInt.natAbs with h | h
  · rw [h]; rfl
  · exact absurd hzero (hhead h)

/-- The text of a word that names a register is its one digit. -/
theorem dec_of_isRegWord {w : Word} (hw : isRegWord w = true) :
    ∃ d, d < 10 ∧ dec w = [digitChar d] ∧ w = BitVec.ofNat 32 d := by
  obtain ⟨h0, h9⟩ := isRegWord_iff_toInt.mp hw
  refine ⟨w.toInt.natAbs, by omega, ?_, ?_⟩
  · rw [dec, decInt, if_neg (Int.not_lt.mpr h0), decDigits, if_pos (by omega)]
  · rw [← BitVec.ofInt_natCast, Int.natAbs_of_nonneg h0, BitVec.ofInt_toInt]

/-! Mnemonics -/

/-- The mnemonics are in capitals (R57). -/
theorem mnemonicText_map_upperChar (m : Mnemonic) :
    (mnemonicText m).map upperChar = mnemonicText m := by
  cases m <;> decide

/-- Settles O2: it holds. A mnemonic's text is its own upper case, and its opcode is looked up. -/
theorem mnemonicLookupRoundTrips : Obligations.MnemonicLookupRoundTrips := by
  intro m
  have hop : opcodeOf (mnemonicText m) = m.opcode := opcodeOf_of_match (mnemonicText_map_upperChar m)
  exact ⟨hop ▸ mnemonicOf_opcode m, hop⟩

/-- No mnemonic holds a comma (R57). -/
theorem comma_not_mem_mnemonicText (m : Mnemonic) : ',' ∉ mnemonicText m := by
  cases m <;> decide

/-- Settles O56: it holds. Upper-casing keeps a comma, and no mnemonic has one. -/
theorem mnemonicsMatchWhateverTheirCase : Obligations.MnemonicsMatchWhateverTheirCase := by
  refine ⟨fun t m => opcodeOf_of_match, fun t => opcodeOf_of_miss, fun t => opcodeOf_of_miss fun m h => ?_⟩
  have hcomma : upperChar ',' ∈ (t ++ [',']).map upperChar := List.mem_map_of_mem (by simp)
  rw [h] at hcomma
  exact comma_not_mem_mnemonicText m hcomma

/-! Operand tokens -/

theorem digitChar_ne_comma {d : Nat} (hd : d < 10) : digitChar d ≠ ',' := by
  interval_cases d <;> decide

/-- `R` and a digit name the register of that digit (R70). -/
theorem registerIndexOf_digit {d : Nat} (hd : d < 10) :
    registerIndexOf ['R', digitChar d] = BitVec.ofNat 32 d := by
  simp only [registerIndexOf, isDigitChar_digitChar hd, if_true, digitChar_toNat hd, Nat.add_sub_cancel_left]

/-- A digit is the digit of its value. -/
theorem exists_digitChar_of_isDigitChar {c : Char} (h : isDigitChar c = true) :
    ∃ d, d < 10 ∧ c = digitChar d := by
  simp only [isDigitChar, Bool.and_eq_true, decide_eq_true_eq] at h
  refine ⟨c.toNat - 48, by omega, ?_⟩
  rw [digitChar, Nat.add_sub_cancel' h.1, Char.ofNat_toNat]

/-- Any other text names no register (R70). -/
theorem registerIndexOf_of_miss {t : Text} (h : ∀ d, d < 10 → t ≠ ['R', digitChar d]) :
    registerIndexOf t = sentinel := by
  unfold registerIndexOf
  split
  · next c =>
    refine if_neg fun hc => ?_
    obtain ⟨d, hd, rfl⟩ := exists_digitChar_of_isDigitChar hc
    exact h d hd rfl
  · rfl

/-- Stripping takes off one trailing comma or nothing (R70). -/
theorem eq_stripComma_or (t : Text) : t = stripComma t ∨ t = stripComma t ++ [','] := by
  by_cases h : t.getLast? = some ','
  · obtain ⟨u, rfl⟩ := List.getLast?_eq_some_iff.mp h
    exact .inr (by rw [stripComma_comma])
  · exact .inl (stripComma_of_ne h).symm

/-- A text with a comma in it is no literal (R71). -/
theorem isDigits_of_comma_mem {t : Text} (h : ',' ∈ t) : isDigits t = false := by
  rw [isDigits, Bool.and_eq_false_iff]
  exact .inr (List.all_eq_false.mpr ⟨',', h, by decide⟩)

theorem literalOf_of_comma_mem {t : Text} (h : ',' ∈ t) : literalOf t = sentinel := by
  have hnone : literalValue? t = none := by
    unfold literalValue?
    split
    · next u =>
      have hu : ',' ∈ u := (List.mem_cons.mp h).resolve_left (by decide)
      simp only [isDigits_of_comma_mem hu, Bool.false_eq_true, if_false]
    · simp only [isDigits_of_comma_mem h, Bool.false_eq_true, if_false]
  rw [literalOf, hnone]

/-- A token that does not begin with `R` is read as a literal (R68). -/
theorem operandOf_of_head_ne {t : Text} (h : t.head? ≠ some 'R') : operandOf t = literalOf t := by
  unfold operandOf
  split
  · exact absurd rfl h
  · rfl

/-- A register name is read with or without a comma after it (R70). -/
theorem operandOf_register {d : Nat} (hd : d < 10) (comma : Bool) :
    operandOf ('R' :: [digitChar d] ++ if comma then [','] else []) = BitVec.ofNat 32 d := by
  have hstrip : stripComma ('R' :: [digitChar d] ++ if comma then [','] else []) = ['R', digitChar d] := by
    cases comma
    · exact stripComma_of_ne (by simpa using digitChar_ne_comma hd)
    · exact stripComma_comma ['R', digitChar d]
  exact (congrArg registerIndexOf hstrip).trans (registerIndexOf_digit hd)

/-- Settles O55: it holds. What is left after stripping one comma is a register name or it is not, and a
token that is read as a literal keeps its comma. -/
theorem registerTokensResolveExactly : Obligations.RegisterTokensResolveExactly := by
  refine ⟨fun d hd => ⟨operandOf_register hd false, operandOf_register hd true⟩, fun t ht => ?miss,
    fun t ht => ?literal⟩
  case miss =>
    refine registerIndexOf_of_miss fun d hd hstrip => ?_
    obtain ⟨hbare, hcomma⟩ := ht d hd
    rcases eq_stripComma_or ('R' :: t) with h | h <;> rw [hstrip] at h
    · exact hbare (List.cons.inj h).2
    · exact hcomma (List.cons.inj h).2
  case literal =>
    have hhead : (t ++ [',']).head? ≠ some 'R' := by
      rcases t with _ | ⟨c, t⟩
      · decide
      · exact ht
    rw [operandOf_of_head_ne hhead]
    exact literalOf_of_comma_mem (by simp)

/-! Blank lines -/

/-- Between separators alone there are only empty pieces. -/
theorem splitAtChars_of_separators {p : Char → Bool} {t : Text} (ht : ∀ c ∈ t, p c = true) :
    ∀ u ∈ splitAtChars p t, u = [] := by
  induction t with
  | nil => simp [splitAtChars]
  | cons c t ih =>
    obtain ⟨hc, ht⟩ := List.forall_mem_cons.mp ht
    rw [splitAtChars, if_pos hc]
    exact List.forall_mem_cons.mpr ⟨rfl, ih ht⟩

/-- A line that is blank once its comment is gone has no tokens (R67). -/
theorem tokenizeLine_of_blank {line : Text} (h : ∀ c ∈ stripComment line, c = ' ' ∨ c = '\t') :
    tokenizeLine line = [] := by
  have hblank : ∀ c ∈ (stripComment line).map upperChar, isBlankChar c = true := by
    intro c hc
    obtain ⟨b, hb, rfl⟩ := List.mem_map.mp hc
    rcases h b hb with rfl | rfl <;> decide
  refine List.filter_eq_nil_iff.mpr fun u hu => ?_
  rw [splitAtChars_of_separators hblank u hu]
  decide

/-- Settles O54: it holds. No line has a token. -/
theorem blankSourceAssemblesToNothing : Obligations.BlankSourceAssemblesToNothing := by
  intro source h
  have hnone : tokenize source = [] := by
    refine List.filter_eq_nil_iff.mpr fun l hl => ?_
    obtain ⟨line, hline, rfl⟩ := List.mem_map.mp hl
    rw [tokenizeLine_of_blank (h line hline)]
    decide
  rw [assemble, hnone, List.flatMap_nil]

/-! Source lines -/

/-- A word may stand as an operand of its kind: one of kind register names a register (R54). -/
def OperandFits (k : OperandKind) (w : Word) : Prop := k = .reg → isRegWord w = true

/-- The operands of a well-formed instruction fit the kinds of its mnemonic (R51, R57). -/
theorem operands_fit {i : Instr} (h : i.WellFormed = true) :
    List.Forall₂ OperandFits i.mnemonic.kinds i.operands := by
  revert h
  cases i <;>
    simp [Instr.WellFormed, Instr.regOperands, Instr.mnemonic, Mnemonic.kinds, Instr.operands, OperandFits]

/-- The text of a word is digits, with a `-` in front or not. -/
theorem mem_dec {w : Word} {c : Char} (h : c ∈ dec w) : c = '-' ∨ isDigitChar c = true := by
  obtain ⟨ds, hdec, hdigits, -, -⟩ := decimalTextIsExact w
  have hall : ∀ c ∈ ds, isDigitChar c = true :=
    List.all_eq_true.mp (Bool.and_eq_true_iff.mp hdigits).2
  rw [hdec] at h
  split at h
  · exact (List.mem_cons.mp h).imp_right (hall c)
  · exact .inr (hall c h)

theorem dec_ne_nil (w : Word) : dec w ≠ [] := by
  obtain ⟨ds, hdec, hdigits, -, -⟩ := decimalTextIsExact w
  rw [hdec]
  split
  · exact List.cons_ne_nil _ _
  · rintro rfl
    cases hdigits

theorem isPlainChar_of_isDigitChar {c : Char} (h : isDigitChar c = true) : isPlainChar c = true := by
  obtain ⟨d, hd, rfl⟩ := exists_digitChar_of_isDigitChar h
  interval_cases d <;> decide

theorem dec_plain (w : Word) : ∀ c ∈ dec w, isPlainChar c = true := by
  intro c hc
  rcases mem_dec hc with rfl | hdigit
  · decide
  · exact isPlainChar_of_isDigitChar hdigit

/-- The text of an operand is a token: not empty, and of plain characters. -/
theorem operandText_plain (comma : Bool) (k : OperandKind) (w : Word) :
    operandText comma k w ≠ [] ∧ ∀ c ∈ operandText comma k w, isPlainChar c = true := by
  cases k
  case reg =>
    refine ⟨List.cons_ne_nil _ _, fun c hc => ?_⟩
    rcases List.mem_append.mp hc with hc | hc
    · rcases List.mem_cons.mp hc with rfl | hc
      · decide
      · exact dec_plain w c hc
    · cases comma
      · cases hc
      · obtain rfl := List.mem_singleton.mp hc
        decide
  case lit => exact ⟨dec_ne_nil w, dec_plain w⟩
  case addr => exact ⟨dec_ne_nil w, dec_plain w⟩

/-- The text of a word does not begin with `R`, so it is read as the literal it is (R71). -/
theorem operandOf_dec (w : Word) : operandOf (dec w) = w := by
  have hhead : (dec w).head? ≠ some 'R' := fun h => by
    rcases mem_dec (List.mem_of_head? h) with hR | hR
    · exact absurd hR (by decide)
    · exact absurd hR (by decide)
  rw [operandOf_of_head_ne hhead, literalOf_dec]

/-- The text of a fitting operand is read back as its word (R70, R71). -/
theorem operandOf_operandText {k : OperandKind} {w : Word} (h : OperandFits k w) (comma : Bool) :
    operandOf (operandText comma k w) = w := by
  cases k
  case reg =>
    obtain ⟨d, hd, hdec, hw⟩ := dec_of_isRegWord (h rfl)
    rw [operandText, hdec, operandOf_register hd comma, hw]
  case lit => exact operandOf_dec w
  case addr => exact operandOf_dec w

/-- The operand texts of a line are tokens. -/
theorem operandTexts_plain (cs : List Bool) (ks : List OperandKind) (ws : List Word) :
    ∀ t ∈ operandTexts cs ks ws, t ≠ [] ∧ ∀ c ∈ t, isPlainChar c = true := by
  induction ks generalizing cs ws with
  | nil => simp [operandTexts]
  | cons k ks ih =>
    rcases ws with _ | ⟨w, ws⟩
    · simp [operandTexts]
    · exact List.forall_mem_cons.mpr ⟨operandText_plain _ k w, ih cs.tail ws⟩

/-- The operand texts of fitting operands are read back as the operands, whatever the commas. -/
theorem map_operandOf_operandTexts {ks : List OperandKind} {ws : List Word}
    (h : List.Forall₂ OperandFits ks ws) (cs : List Bool) :
    (operandTexts cs ks ws).map operandOf = ws := by
  induction h generalizing cs with
  | nil => rfl
  | cons hfit _ ih => rw [operandTexts, List.map_cons, operandOf_operandText hfit, ih]

/-- Settles O53: it holds. The line splits into the tokens it was written from, the mnemonic is looked up,
and each operand text is read back as its word. -/
theorem sourceLineAssemblesToItsWords : Obligations.SourceLineAssemblesToItsWords := by
  intro commas i hwf
  rw [sourceLine, assemble_tokens _ _ (mnemonicText_plain i.mnemonic) (operandTexts_plain _ _ _),
    encodeTokens, opcodeOf_of_match (mnemonicText_map_upperChar i.mnemonic),
    map_operandOf_operandTexts (operands_fit hwf)]
  rfl

end Sys2Proof.Machine
